-- ==== Sys2Proof/Config.lean ====
section
/-! DEFINITION. What an implementation fixes (the parameters `ADDR_W` and `N_INST`) and the free
values: constants without a body, which no proof can evaluate. -/

namespace Sys2Proof.Config

/-- `ADDR_W`, the width in bits of a byte address and of PTR and LEN: a parameter, at least 2 (R8).
A State holds the width of its system (log 1). -/
structure AddrWidth where
  bits   : Nat
  two_le : 2 ≤ bits
  deriving DecidableEq, Repr

/-- `2^ADDR_W`, the number of addresses (R40). -/
def AddrWidth.size (w : AddrWidth) : Nat := 2 ^ w.bits

/-- `a mod 2^ADDR_W` (R14, R52). -/
def AddrWidth.wrap (w : AddrWidth) (a : Nat) : Nat := a % w.size

/-- How far `a` lies above `base`, modulo `2^ADDR_W`. -/
def AddrWidth.offset (w : AddrWidth) (base a : Nat) : Nat := w.wrap (a + (w.size - w.wrap base))

/-- The default of `ADDR_W` for this hardware (R8). Only `State.reset`, and the numbering of a whole
transaction as one word, use it. -/
def addrW : AddrWidth := ⟨32, by decide⟩

/-- `N_INST`, the number of engine instances (R9: a parameter, at least 1, no default). Only
`State.reset` uses it: a State may hold any positive number of instances. DESIGN CHOICE, log 2. -/
def nInst : Nat := 2

/-- FREE VALUE: the byte at an address at which the host never placed one (R41: the read completes
with a byte; the spec gives no contents). One value per address (R51). Log 3. -/
opaque unwrittenByte : Nat → BitVec 8

/-- FREE VALUE: the byte a read returns where the host broke its duty (R50, R154, U6: each such
read is a draw). It is applied to the counter `State.draws`, which every draw advances. Log 4. -/
opaque drawnByte : Nat → BitVec 8

/-- FREE VALUE: how many of its memory reads a command abandoned by reset had made (R150, U12).
It is applied to `State.draws`. Log 9. -/
opaque abandonedReads : Nat → Nat

end Sys2Proof.Config
end

