-- ==== Sys2Proof/Word.lean ====
section
/-! DEFINITION. The machine's word types. A byte address and a length in bytes is a Nat below `2^ADDR_W`,
the width being a parameter of the system (R8): it is computed exactly and reduced modulo `2^ADDR_W`
where the rules say so (R12, R14, R52; log 1). -/

namespace Sys2Proof

/-- A byte of the buffer memory (R40). -/
abbrev Byte := BitVec 8

/-- The lookahead word's type (R10). -/
abbrev Word := BitVec 16

/-- A bit count: REM and the CNT field (R10), 5 bits, legal values 0..16. -/
abbrev Count := BitVec 5

end Sys2Proof
end

