-- ==== Sys2Proof/Syntax.lean ====
section
/-! DEFINITION. The commands: one constructor per row of the opcode table, and the command
transaction that carries one. -/

namespace Sys2Proof

/-- The eight commands of BSLE-1 (R4, R63), with their operands (R62). -/
inductive Instr where
  /-- `init BASE, BLEN`: INIT (R80). -/
  | init (base blen : Nat)
  /-- `rdbit`: READ_BIT (R93). -/
  | rdbit
  /-- `rdbits N`: READ_BITS (R92). -/
  | rdbits (count : Count)
  /-- `pkbits N`: PEEK_BITS (R94). -/
  | pkbits (count : Count)
  /-- `rdu16le`: READ_U16_LE (R111). -/
  | rdu16le
  /-- `rdu32le`: READ_U32_LE (R112). -/
  | rdu32le
  /-- `rdu24be`: READ_U24_BE (R113). -/
  | rdu24be
  /-- `isempty`: IS_EMPTY (R120). -/
  | isempty
  deriving DecidableEq, Repr

/-- What the host puts on the command port: the command word CMD and, beside it, BASE and BLEN
(R60), each a number of ADDR_W bits (log 12). -/
structure Transaction where
  cmd  : BitVec 32
  base : Nat
  blen : Nat
  deriving DecidableEq, Repr

end Sys2Proof
end

