-- ==== Sys2Proof/WellFormed.lean ====
section
/-! DEFINITION. Which instructions are legal. -/

namespace Sys2Proof

/-- A count is legal in 0..16 (R62, R67). -/
def Count.legal (c : Count) : Bool := decide (c.toNat ≤ 16)

/-- The one well-formedness check of the command set: READ_BITS and PEEK_BITS take a count of
0..16 (R67); no other operand value is illegal (R68, R81). -/
def Instr.wellFormed : Instr → Bool
  | .init _ _ => true
  | .rdbit    => true
  | .rdbits c => Count.legal c
  | .pkbits c => Count.legal c
  | .rdu16le  => true
  | .rdu32le  => true
  | .rdu24be  => true
  | .isempty  => true

end Sys2Proof
end

