-- ==== Sys2Proof/Decode.lean ====
section
/-! DEFINITION. The decoder, total on every command word and rejecting by name, and after it the
encoder. -/

namespace Sys2Proof

/-- OPC = CMD[3:0] (R61). -/
def Transaction.opc (t : Transaction) : BitVec 4 := t.cmd.extractLsb' 0 4

/-- CNT = CMD[8:4] (R61). -/
def Transaction.cnt (t : Transaction) : Count := t.cmd.extractLsb' 4 5

/-- RSV = CMD[31:9] (R61). -/
def Transaction.rsv (t : Transaction) : BitVec 23 := t.cmd.extractLsb' 9 23

/-- Why a command word is illegal (R64 to R67); each takes the fault entry of R135. -/
inductive IllegalCommand where
  /-- OPC is 0x0 or 0x9..0xF (R64). -/
  | reservedOpcode (opc : BitVec 4)
  /-- RSV is not 0 (R65). -/
  | reservedBits (rsv : BitVec 23)
  /-- CNT is not 0 on a command without a count (R66). -/
  | strayCount (cnt : Count)
  /-- CNT is above 16 on READ_BITS or PEEK_BITS (R67). -/
  | countOutOfRange (cnt : Count)
  deriving DecidableEq, Repr

/-- The opcode map (R63): the command OPC selects, with its operands; none if OPC is reserved. -/
def selectCommand (opc : BitVec 4) (cnt : Count) (base blen : Nat) : Option Instr :=
  match opc.toNat with
  | 0x1 => some (.init base blen)
  | 0x2 => some .rdbit
  | 0x3 => some (.rdbits cnt)
  | 0x4 => some (.pkbits cnt)
  | 0x5 => some .rdu16le
  | 0x6 => some .rdu32le
  | 0x7 => some .rdu24be
  | 0x8 => some .isempty
  | _   => none

/-- OPC 0x3 and 0x4 alone use the CNT field (R61). -/
def usesCount (opc : BitVec 4) : Bool := opc == 0x3 || opc == 0x4

/-- Decoding, with the checks in the order of R138: reserved OPC, RSV, stray CNT, CNT above 16. It
looks at no state (R69), and at BASE and BLEN for INIT alone (R68). -/
def decode (t : Transaction) : Except IllegalCommand Instr :=
  match selectCommand t.opc t.cnt t.base t.blen with
  | none   => .error (.reservedOpcode t.opc)
  | some i =>
    if t.rsv ≠ 0 then .error (.reservedBits t.rsv)
    else if !usesCount t.opc && t.cnt != 0 then .error (.strayCount t.cnt)
    else if usesCount t.opc && !Count.legal t.cnt then .error (.countOutOfRange t.cnt)
    else .ok i

/-- A whole transaction numbered as one word: CMD in bits 31..0 as the opcode table numbers them,
then BASE, then BLEN, each at ADDR_W's default (the numbering of the two side operands is the
model's, log 12). -/
def Transaction.ofBits (n : Nat) : Transaction where
  cmd  := BitVec.ofNat 32 n
  base := Config.addrW.wrap (n >>> 32)
  blen := Config.addrW.wrap (n >>> (32 + Config.addrW.bits))

/-- The transaction whose low `nbits` bits are `w`, every bit above them 0. -/
def Transaction.ofTableWord (nbits w : Nat) : Transaction := .ofBits (w % 2 ^ nbits)

/-- The instruction the decoder reads from an opcode-table word of `nbits` bits. -/
def decodeTableWord (nbits w : Nat) : Option Instr :=
  match decode (.ofTableWord nbits w) with
  | .ok i    => some i
  | .error _ => none

/-- CMD from its three fields, RSV = 0 (R61). -/
def commandWord (cnt : Count) (opc : BitVec 4) : BitVec 32 := (0#23 ++ cnt) ++ opc

/-- Encoding (R63, R72). The side operands of a command other than INIT are sent as 0; they are
ignored (R68). -/
def encode : Instr → Transaction
  | .init base blen => ⟨commandWord 0 0x1, base, blen⟩
  | .rdbit          => ⟨commandWord 0 0x2, 0, 0⟩
  | .rdbits count   => ⟨commandWord count 0x3, 0, 0⟩
  | .pkbits count   => ⟨commandWord count 0x4, 0, 0⟩
  | .rdu16le        => ⟨commandWord 0 0x5, 0, 0⟩
  | .rdu32le        => ⟨commandWord 0 0x6, 0, 0⟩
  | .rdu24be        => ⟨commandWord 0 0x7, 0, 0⟩
  | .isempty        => ⟨commandWord 0 0x8, 0, 0⟩

end Sys2Proof
end

