-- ==== Sys2Proof/Machine/Operands.lean ====
section
/-! DEFINITION. The spec's arithmetic primitives, exact on natural numbers (R11, R12), the operand
form of a count (R62), and the computations reads and peeks share (R16, R90). -/

namespace Sys2Proof.Machine

/-- `mask(n)` (R12). -/
def mask (n : Nat) : Nat := 2 ^ n - 1

/-- The field of `width` bits of `v` whose lowest bit is bit `lo`: `v[lo+width-1 : lo]`, and 0 when
the width is 0 (R11). -/
def field (v lo width : Nat) : Nat := (v >>> lo) &&& mask width

/-- The count operand, `zext(CNT)` (R62): unsigned, neither scaled nor offset. -/
def countOperand (c : Count) : Nat := c.toNat

/-- `b1 ++ b0`: the word whose low byte is `b0` (R11, R43). -/
def joinBytes (b1 b0 : Byte) : Word := b1 ++ b0

/-- `Extract(word, rem, next, n)` (R90). -/
def extract (word : Word) (rem : Nat) (next : Word) (n : Nat) : Nat :=
  if n ≤ rem then
    field word.toNat (rem - n) n
  else
    let k  := n - rem
    let hi := field word.toNat 0 rem
    let lo := field next.toNat (16 - k) k
    (hi <<< k) ||| lo

/-- `swap16(v)` = `v[7:0] ++ v[15:8]` (R16). -/
def swap16 (v : Nat) : Nat := (field v 0 8 <<< 8) ||| field v 8 8

/-- `rotl16(v, k)` for `k` in 0..15 (R16); only the correspondence of R25 uses it. -/
def rotl16 (v k : Nat) : Nat := ((v <<< k) ||| (v >>> (16 - k))) &&& 0xFFFF

/-- ROT, the source's rotating register, computed from WORD and REM (R25; informative). -/
def rotated (word : Word) (rem : Nat) : Nat := rotl16 word.toNat ((16 - rem) % 16)

/-- READ_U32_LE's result from its two reads: `(second << 16) | first`, each half swapped (R112). -/
def joinU32le (v1 v2 : Nat) : Nat := (swap16 v2 <<< 16) ||| swap16 v1

/-- READ_U24_BE's result from its two reads: `(hi << 8) | lo` (R113). -/
def joinU24be (hi lo : Nat) : Nat := (hi <<< 8) ||| lo

end Sys2Proof.Machine
end

