-- ==== Sys2Proof/Machine/State.lean ====
section
/-! DEFINITION. The machine's state as plain data, the state after reset, and the reasons a step can
stop. -/

namespace Sys2Proof.Machine

/-- The engine's registers, exactly those of R20. -/
structure Regs where
  /-- WORD: the last loaded lookahead word, as loaded (R22). -/
  word    : Word
  /-- REM: the count of bits of WORD not yet consumed, 0..16 (R23). -/
  rem     : Count
  /-- PTR: the address of the first byte not yet loaded (R21). -/
  ptr     : Nat
  /-- LEN: the number of bytes not yet loaded (R21). -/
  len     : Nat
  /-- FAULTED: set by the fault entry, cleared by reset alone (R27). -/
  faulted : Bool
  deriving DecidableEq, Repr

/-- The session (R83): the range its INIT named, which the host's duty covers (R50), and the bytes
of that range on which the host broke the duty (R154, U6; log 4). -/
structure Session where
  base      : Nat
  len       : Nat
  disturbed : List Nat
  deriving DecidableEq, Repr

/-- The outcomes of a command (R70); code 3 is never produced. -/
inductive Status where
  | ok
  | underflow
  | fault
  deriving DecidableEq, Repr

/-- A response: STATUS and VALUE (R60, R70). -/
structure Response where
  status : Status
  value  : BitVec 32
  deriving DecidableEq, Repr

/-- One engine instance (R34): its registers, its session, and what its two ports last carried. -/
structure Instance where
  regs     : Regs
  session  : Session
  /-- The response to the last command, none before the first and after a reset (log 7). -/
  response : Option Response
  /-- The byte addresses put on the memory port for the last command, in order (log 8). -/
  reads    : List Nat
  deriving DecidableEq, Repr

/-- What the host does to the system; instances are numbered from 0. -/
inductive HostEvent where
  /-- Issues a command to an instance and takes its response (R60, R155). -/
  | command (inst : Nat) (t : Transaction)
  /-- Asserts an instance's reset between commands (R150). -/
  | reset (inst : Nat)
  /-- Asserts an instance's reset while it serves a command, which is abandoned (R150). -/
  | resetDuring (inst : Nat) (t : Transaction)
  /-- Writes a byte of the buffer memory; not yet visible to the engines (R153, R154). -/
  | write (addr : Nat) (byte : Byte)
  /-- Makes the writes so far visible to the engines' memory ports (R153 step 3). -/
  | publish
  deriving DecidableEq, Repr

/-- The buffer memory as the engines' ports see it (R40): the bytes the host placed, by address. -/
abbrev Memory := List Host.Cell

/-- The whole system: `N_INST` instances (R9), the buffer memory, and the host's side. -/
structure State where
  /-- ADDR_W, a parameter of the system that no step changes (R8; log 1). -/
  addrW   : Config.AddrWidth
  /-- The instance in service: number 0 between steps, the one addressed while a meaning runs. -/
  cur     : Instance
  /-- The other instances, numbers 1, 2, … between steps. -/
  others  : List Instance
  mem     : Memory
  /-- The host's writes not yet visible, oldest first (R154). -/
  pending : List (Nat × Byte)
  /-- How many free values were taken (the model's own field, log 4). -/
  draws   : Nat
  /-- What the host does next, in order (log 5). -/
  inputs  : List HostEvent
  deriving DecidableEq, Repr

/-- Why the machine stops. -/
inductive Fault where
  /-- Raised by `step` for a command or reset sent to an instance number that is not below
  `N_INST`: there is no such port (R9, R145; log 10). Safe: the machine stops. -/
  | noSuchInstance
  deriving DecidableEq, Repr

/-- Why an instruction has no meaning. -/
inductive Refusal where
  /-- Raised by an arm of `exec` without a meaning; no arm raises it in this model. Safe. -/
  | notModelled (mnemonic : String)
  deriving DecidableEq, Repr

/-- The registers after reset (R33, R150). -/
def Regs.reset : Regs where
  word    := 0x0000
  rem     := 0
  ptr     := 0
  len     := 0
  faulted := false

/-- The session that begins at reset: the empty buffer at address 0 (R83, R151). -/
def Session.reset : Session := ⟨0, 0, []⟩

/-- An instance after reset (R150). -/
def Instance.reset : Instance := ⟨Regs.reset, Session.reset, none, []⟩

/-- A system of address width `w` and `n + 1` instances after reset, with nothing in memory and no event
to come. -/
def State.resetSystem (w : Config.AddrWidth) (n : Nat) : State where
  addrW   := w
  cur     := Instance.reset
  others  := List.replicate n Instance.reset
  mem     := []
  pending := []
  draws   := 0
  inputs  := []

/-- The machine right after reset (R33, R150): ADDR_W at its default (R8), and log 2 for the number of
instances. -/
def State.reset : State := State.resetSystem Config.addrW (Config.nInst - 1)

end Sys2Proof.Machine
end

