-- ==== Sys2Proof/Machine/Flags.lean ====
section
/-! DEFINITION. FAULTED, the engine's only flag (R29); emptiness, which is computed and not stored
(R29, R120); and the STATUS codes (R70). -/

namespace Sys2Proof.Machine

/-- `FAULTED <- 1` (R135). -/
def Regs.setFaulted (r : Regs) : Regs := { r with faulted := true }

/-- `no_words`: no further whole word to load (R120, R131). -/
def Regs.noWords (r : Regs) : Bool := decide (r.len < 2)

/-- `pad_zero`: every unconsumed bit `WORD[REM-1:0]` is 0; true when REM = 0 (R120). -/
def Regs.padZero (r : Regs) : Bool := field r.word.toNat 0 r.rem.toNat == 0

/-- What IS_EMPTY computes (R120). -/
def Regs.empty (r : Regs) : Bool := r.noWords && r.padZero

/-- The 2-bit STATUS code (R70). -/
def Status.code : Status → BitVec 2
  | .ok        => 0
  | .underflow => 1
  | .fault     => 2

end Sys2Proof.Machine
end

