-- ==== Sys2Proof/Machine/Ops.lean ====
section
/-! DEFINITION. The operations the meanings share, over the registers, the memory port and the
command port, and what the host does to the system. -/

namespace Sys2Proof.Machine

/-! ### The buffer memory -/

/-- The byte the host placed at `a`; none if it placed none there. -/
def Memory.lookup : Memory → Nat → Option Byte
  | [], _ => none
  | (k, b) :: m, a => if k = a then some b else Memory.lookup m a

/-- The memory after the host's byte `b` has reached address `a`; addresses stay rising. -/
def Memory.place : Memory → Nat → Byte → Memory
  | [], a, b => [(a, b)]
  | (k, c) :: m, a, b =>
    if a < k then (a, b) :: (k, c) :: m
    else if a = k then (a, b) :: m
    else (k, c) :: Memory.place m a b

/-- Addresses rise strictly from `lo` and lie in the address space (R40). -/
def Memory.risesFrom (w : Config.AddrWidth) (lo : Nat) : Memory → Bool
  | [] => true
  | (k, _) :: m => decide (lo ≤ k) && decide (k < w.size) && Memory.risesFrom w (k + 1) m

/-- The canonical form: addresses strictly rising. An unlisted address holds no byte the host
placed, so no entry equals what an unlisted address reads as (log 3). -/
def Memory.wf (w : Config.AddrWidth) (m : Memory) : Bool := Memory.risesFrom w 0 m

/-- The byte the memory holds at `a` (R41): the host's, or the free byte of that address (log 3). -/
def byteAt (m : Memory) (a : Nat) : Byte :=
  match Memory.lookup m a with
  | some b => b
  | none   => Config.unwrittenByte a

/-! ### Sessions -/

/-- `a` lies in `[base, base + len)`, addresses taken modulo `2^ADDR_W` (R31, R52). -/
def Session.covers (w : Config.AddrWidth) (ses : Session) (a : Nat) : Bool :=
  decide (w.offset ses.base a < ses.len)

/-- Records that the host broke its duty at `a`, if the session covers `a` (R50, R154). -/
def Session.disturb (w : Config.AddrWidth) (ses : Session) (a : Nat) : Session :=
  if ses.covers w a && !ses.disturbed.contains a then
    { ses with disturbed := ses.disturbed ++ [a] }
  else ses

/-- The session an INIT begins (R83): the bytes of its range whose write is not visible yet are
disturbed from the start (R154, U6). -/
def Session.start (w : Config.AddrWidth) (base blen : Nat) (pending : List (Nat × Byte)) : Session :=
  pending.foldl (fun ses p => ses.disturb w p.1) ⟨base, blen, []⟩

/-! ### The instance in service -/

/-- Writes the registers. -/
def setRegs (r : Regs) (s : State) : State := { s with cur := { s.cur with regs := r } }

/-- Accepts a command (R60): no response yet, and nothing read for it. -/
def beginCommand (s : State) : State := { s with cur := { s.cur with response := none, reads := [] } }

/-- `respond(s, v)` with VALUE = `zext_32(v)` (R15). -/
def respond (st : Status) (v : Nat) (s : State) : State :=
  { s with cur := { s.cur with response := some ⟨st, BitVec.ofNat 32 v⟩ } }

/-- `MemRead(a, 1)` (R14, R41): presents `a mod 2^ADDR_W` on the memory port. A byte on which the host broke its
duty is a draw (R50, U6; log 4). A read has no side effect on memory (R51; log 13). -/
def memRead (a : Nat) (s : State) : Byte × State :=
  let a := s.addrW.wrap a
  let cur := { s.cur with reads := s.cur.reads ++ [a] }
  if s.cur.session.disturbed.contains a then
    (Config.drawnByte s.draws, { s with cur := cur, draws := s.draws + 1 })
  else
    (byteAt s.mem a, { s with cur := cur })

/-- The two bytes of a word at `a`, lower address first (R42; both addresses wrap, R52). -/
def readWord (a : Nat) (s : State) : Word × State :=
  let (b0, s) := memRead a s
  let (b1, s) := memRead (a + 1) s
  (joinBytes b1 b0, s)

/-- `LoadWord()` (R42); callers ensure `LEN >= 2`. -/
def loadWord (s : State) : State :=
  let (w, s) := readWord s.cur.regs.ptr s
  setRegs { s.cur.regs with
    word := w, ptr := s.addrW.wrap (s.cur.regs.ptr + 2), len := s.cur.regs.len - 2, rem := 16 } s

/-- `REM <- n`. -/
def setRem (n : Nat) (s : State) : State := setRegs { s.cur.regs with rem := BitVec.ofNat 5 n } s

/-- `ReadBits(n)` (R91): the value and the committed state, or none for Underflow with the state
unchanged. -/
def readBits (n : Nat) (s : State) : Option (Nat × State) :=
  let word := s.cur.regs.word
  let r := s.cur.regs.rem.toNat
  if n ≤ r then
    some (extract word r 0 n, setRem (r - n) s)
  else if s.cur.regs.noWords then
    none
  else
    let s := loadWord s
    let k := n - r
    some (extract word r s.cur.regs.word n, setRem (16 - k) s)

/-- The word after the lookahead as PEEK_BITS sees it: a missing byte is zero (R94, R100). -/
def peekWord (s : State) : Word × State :=
  let ptr := s.cur.regs.ptr
  match s.cur.regs.len with
  | 0 => (0, s)
  | 1 =>
    let (b0, s) := memRead ptr s
    (joinBytes 0 b0, s)
  | _ => readWord ptr s

/-- The value of PEEK_BITS (R94); no register is written. -/
def peekBits (n : Nat) (s : State) : Nat × State :=
  let word := s.cur.regs.word
  let r := s.cur.regs.rem.toNat
  if n ≤ r then
    (extract word r 0 n, s)
  else
    let (next, s) := peekWord s
    (extract word r next n, s)

/-- A command of one ReadBits step, answered with `f` of its value (R91, R110). -/
def readOne (n : Nat) (f : Nat → Nat) (s : State) : State :=
  match readBits n s with
  | none        => respond .underflow 0 s
  | some (v, s) => respond .ok (f v) s

/-- A command of two ReadBits steps; an Underflow of the second leaves the first committed (R110). -/
def readTwo (n m : Nat) (f : Nat → Nat → Nat) (s : State) : State :=
  match readBits n s with
  | none => respond .underflow 0 s
  | some (v, s) =>
    match readBits m s with
    | none        => respond .underflow 0 s
    | some (w, s) => respond .ok (f v w) s

/-! ### Faults -/

/-- `FaultEntry()` (R135), the machine's one exception entry: no other register changes and nothing
is read. There is no return from it but reset (R136, R140). -/
def faultEntry (s : State) : State := respond .fault 0 (setRegs s.cur.regs.setFaulted s)

/-- The answer of a FAULTED engine: no register changes (R136). -/
def answerFaulted (s : State) : State := respond .fault 0 s

/-- Serves a command whose word is legal: the first common check (R138), then its rule. -/
def serveCommand (rule : State → State) (s : State) : Host.Outcome State Fault Refusal :=
  let s := beginCommand s
  if s.cur.regs.faulted then .next (answerFaulted s) else .next (rule s)

/-- Serves a command whose word is illegal (R138, R64 to R67). -/
def serveIllegal (s : State) : Host.Outcome State Fault Refusal := serveCommand faultEntry s

/-- A rule with a count operand: a count above 16 takes the fault entry and is never truncated
(R67, R134 case 5; the decoder lets none through, log 6). -/
def withCount (c : Count) (rule : Nat → State → State) (s : State) : State :=
  if Count.legal c then rule (countOperand c) s else faultEntry s

/-! ### Reset -/

/-- Reset of the instance in service (R150). -/
def resetCurrent (s : State) : State := { s with cur := Instance.reset }

/-- Reset of the instance in service while it serves the command that would have led to `s`: no
response, and some first part of its reads was made (R150, U12; log 9). -/
def abandonCommand (s : State) : State :=
  let made := s.cur.reads.take (Config.abandonedReads s.draws)
  { s with cur := { Instance.reset with reads := made }, draws := s.draws + 1 }

/-! ### The system and the host -/

/-- Whether the system has an instance numbered `k` (R9). -/
def State.hasInst (k : Nat) (s : State) : Bool := decide (k ≤ s.others.length)

/-- The instance numbered `k` of a state between steps. -/
def State.inst (k : Nat) (s : State) : Option Instance :=
  match k with
  | 0     => some s.cur
  | j + 1 => s.others[j]?

/-- Brings instance `k` into service, and back when applied again. -/
def State.swap (k : Nat) (s : State) : State :=
  match k with
  | 0 => s
  | j + 1 =>
    match s.others[j]? with
    | none   => s
    | some e => { s with cur := e, others := s.others.set j s.cur }

/-- The first event is taken from the host's list. -/
def State.popInput (s : State) : State := { s with inputs := s.inputs.tail }

/-- Applies `f` to the next state of an outcome. -/
def mapNext (f : State → State) : Host.Outcome State Fault Refusal → Host.Outcome State Fault Refusal
  | .next s    => .next (f s)
  | .fault r   => .fault r
  | .refused r => .refused r

/-- Runs `act` with instance `k` in service; an instance that does not exist stops the machine. -/
def onInst (k : Nat) (act : State → Host.Outcome State Fault Refusal) (s : State) :
    Host.Outcome State Fault Refusal :=
  if s.hasInst k then mapNext (State.swap k) (act (s.swap k)) else .fault .noSuchInstance

/-- An instance after the host wrote address `a`. -/
def Instance.disturb (w : Config.AddrWidth) (a : Nat) (e : Instance) : Instance :=
  { e with session := e.session.disturb w a }

/-- The host writes a byte (R153 step 2): not visible yet, and a broken duty for every live session
that covers it (R50, R154). -/
def hostWrite (a : Nat) (b : Byte) (s : State) : State :=
  let a := s.addrW.wrap a
  { s with
    cur     := s.cur.disturb s.addrW a
    others  := s.others.map (Instance.disturb s.addrW a)
    pending := s.pending ++ [(a, b)] }

/-- The host makes its writes visible (R153 step 3), in the order it made them. -/
def hostPublish (s : State) : State :=
  { s with
    mem     := s.pending.foldl (fun m w => m.place w.1 w.2) s.mem
    pending := [] }

end Sys2Proof.Machine
end

