-- ==== Sys2Proof/Machine/BitExtraction.lean ====
section
/-! DEFINITION. The meanings of READ_BIT, READ_BITS and PEEK_BITS (41_bit_extraction.md). -/

namespace Sys2Proof.Machine

/-- READ_BIT (R93): one ReadBits step of one bit. -/
def execRdbit (s : State) : Host.Outcome State Fault Refusal :=
  serveCommand (readOne 1 id) s

/-- READ_BITS (R92): one ReadBits step of `count` bits. -/
def execRdbits (count : Count) (s : State) : Host.Outcome State Fault Refusal :=
  serveCommand (withCount count fun n => readOne n id) s

/-- PEEK_BITS's rule (R94): the next `n` bits, none consumed; it never underflows (R95). -/
def peekRule (n : Nat) (s : State) : State :=
  let (v, s) := peekBits n s
  respond .ok v s

/-- PEEK_BITS (R94). -/
def execPkbits (count : Count) (s : State) : Host.Outcome State Fault Refusal :=
  serveCommand (withCount count peekRule) s

end Sys2Proof.Machine
end

