-- ==== Sys2Proof/Machine/Construction.lean ====
section
/-! DEFINITION. The meaning of INIT (40_construction.md). -/

namespace Sys2Proof.Machine

/-- INIT's rule (R80): a session over `[BASE, BASE + BLEN)` begins; nothing is read or checked
(R81), and the previous session is gone (R82). BASE and BLEN have ADDR_W bits (R60; log 12). -/
def initRule (base blen : Nat) (s : State) : State :=
  let base := s.addrW.wrap base
  let blen := s.addrW.wrap blen
  respond .ok 0
    { s with cur := { s.cur with
        regs    := { s.cur.regs with ptr := base, len := blen, word := 0x0000, rem := 0 }
        session := Session.start s.addrW base blen s.pending } }

/-- INIT (R80 to R83). -/
def execInit (base blen : Nat) (s : State) : Host.Outcome State Fault Refusal :=
  serveCommand (initRule base blen) s

end Sys2Proof.Machine
end

