-- ==== Sys2Proof/Machine/Marshaling.lean ====
section
/-! DEFINITION. The meanings of READ_U16_LE, READ_U32_LE and READ_U24_BE (42_marshaling.md). -/

namespace Sys2Proof.Machine

/-- READ_U16_LE (R111): 16 bits, their bytes swapped. -/
def execRdu16le (s : State) : Host.Outcome State Fault Refusal :=
  serveCommand (readOne 16 swap16) s

/-- READ_U32_LE (R112): two byte-swapped halves, the low one first. -/
def execRdu32le (s : State) : Host.Outcome State Fault Refusal :=
  serveCommand (readTwo 16 16 joinU32le) s

/-- READ_U24_BE (R113): 16 bits and then 8, the first ones high, no swap. -/
def execRdu24be (s : State) : Host.Outcome State Fault Refusal :=
  serveCommand (readTwo 16 8 joinU24be) s

end Sys2Proof.Machine
end

