-- ==== Sys2Proof/Machine/StreamStatus.lean ====
section
/-! DEFINITION. The meaning of IS_EMPTY (43_status.md). -/

namespace Sys2Proof.Machine

/-- IS_EMPTY's rule (R120): 1 when no whole word is left to load and the unconsumed bits are all
zero, which cannot be told from chunk padding (R121). -/
def isEmptyRule (s : State) : State :=
  respond .ok (if s.cur.regs.empty then 1 else 0) s

/-- IS_EMPTY (R120). -/
def execIsempty (s : State) : Host.Outcome State Fault Refusal :=
  serveCommand isEmptyRule s

end Sys2Proof.Machine
end

