-- ==== Sys2Proof/Machine/Dispatch.lean ====
section
/-! DEFINITION. One arm per command. -/

namespace Sys2Proof.Machine

def exec (i : Instr) (s : State) : Host.Outcome State Fault Refusal :=
  match i with
  | .init base blen => Sys2Proof.Machine.execInit base blen s
  | .rdbit => Sys2Proof.Machine.execRdbit s
  | .rdbits count => Sys2Proof.Machine.execRdbits count s
  | .pkbits count => Sys2Proof.Machine.execPkbits count s
  | .rdu16le => Sys2Proof.Machine.execRdu16le s
  | .rdu32le => Sys2Proof.Machine.execRdu32le s
  | .rdu24be => Sys2Proof.Machine.execRdu24be s
  | .isempty => Sys2Proof.Machine.execIsempty s

end Sys2Proof.Machine
end

