-- ==== Sys2Proof/Machine/Step.lean ====
section
/-! DEFINITION. One step of the system: the host's next event. There is no program counter and no
fetch from memory (R28, R57): commands come from the command port. -/

namespace Sys2Proof.Machine

/-- `Serve(CMD, BASE, BLEN)` of the instance in service (R138), one step from issue to response
(log 14). -/
def serve (t : Transaction) (s : State) : Host.Outcome State Fault Refusal :=
  match decode t with
  | .ok i    => exec i s
  | .error _ => serveIllegal s

/-- What the first event, taken from the list, does. -/
def handle (e : HostEvent) (s : State) : Host.Outcome State Fault Refusal :=
  match e with
  | .command k t     => onInst k (serve t) s
  | .reset k         => onInst k (fun s => .next (resetCurrent s)) s
  | .resetDuring k t => onInst k (fun s => mapNext abandonCommand (serve t s)) s
  | .write a b       => .next (hostWrite a b s)
  | .publish         => .next (hostPublish s)

/-- One step: the first event of the host's list; with none, every instance is idle and keeps its
state (R144). -/
def step (s : State) : Host.Outcome State Fault Refusal :=
  match s.inputs with
  | []     => .next s
  | e :: _ => handle e s.popInput

/-- `s` with the command whose low `nbits` bits are `w` issued next, to instance 0 (logs 11, 12). -/
def State.withFetchWord (s : State) (nbits w : Nat) : State :=
  { s with inputs := .command 0 (Transaction.ofTableWord nbits w) :: s.inputs }

end Sys2Proof.Machine
end

