-- ==== Sys2Proof/Safety.lean ====
section
/-! DEFINITION. The terms claims are stated in: the logical stream of a session (10_state.md), what a
command is about to read, the invariants, and the host duty a safe run keeps. -/

namespace Sys2Proof

/-! ### Commands by what they read -/

/-- The bits a command's first ReadBits step takes (R92, R93, R111 to R113). -/
def Instr.firstRead : Instr → Option Nat
  | .rdbit    => some 1
  | .rdbits c => some c.toNat
  | .rdu16le  => some 16
  | .rdu32le  => some 16
  | .rdu24be  => some 16
  | .init _ _ => none
  | .pkbits _ => none
  | .isempty  => none

/-- The stream bits a command takes in all (R92, R93, R111 to R113). -/
def Instr.readWidth : Instr → Option Nat
  | .rdbit    => some 1
  | .rdbits c => some c.toNat
  | .rdu16le  => some 16
  | .rdu32le  => some 32
  | .rdu24be  => some 24
  | .init _ _ => none
  | .pkbits _ => none
  | .isempty  => none

/-- How a command arranges the stream bits `v` it took (earliest most significant) in VALUE:
READ_U16_LE swaps the two bytes, READ_U32_LE swaps the bytes of each half and puts the first half
low, the others answer them as they are (R92, R93, R111 to R113). -/
def Instr.arrange : Instr → Nat → Nat
  | .rdu16le, v  => v % 2 ^ 8 * 2 ^ 8 + v / 2 ^ 8
  | .rdu32le, v  =>
    (v % 2 ^ 8 * 2 ^ 8 + v / 2 ^ 8 % 2 ^ 8) * 2 ^ 16 + (v / 2 ^ 16 % 2 ^ 8 * 2 ^ 8 + v / 2 ^ 24)
  | .rdbit, v    => v
  | .rdbits _, v => v
  | .rdu24be, v  => v
  | .init _ _, v => v
  | .pkbits _, v => v
  | .isempty, v  => v

/-- The most bytes a command reads (R157). -/
def Instr.maxReads : Instr → Nat
  | .init _ _ => 0
  | .rdbit    => 2
  | .rdbits _ => 2
  | .pkbits _ => 2
  | .rdu16le  => 2
  | .rdu32le  => 4
  | .rdu24be  => 4
  | .isempty  => 0

end Sys2Proof

namespace Sys2Proof.Machine

/-! ### The stream of a session -/

/-- The address of byte `k` of the session's range (R31, R52). -/
def Session.addr (w : Config.AddrWidth) (ses : Session) (k : Nat) : Nat := w.wrap (ses.base + k)

/-- `w_k`, the session's word number `k` (R31). -/
def streamWord (w : Config.AddrWidth) (m : Memory) (ses : Session) (k : Nat) : Word :=
  joinBytes (byteAt m (ses.addr w (2 * k + 1))) (byteAt m (ses.addr w (2 * k)))

/-- `S[i]`, bit `i` of the logical stream: `S[16k + j] = w_k[15 - j]` (R31). -/
def streamBit (w : Config.AddrWidth) (m : Memory) (ses : Session) (i : Nat) : Bool :=
  (streamWord w m ses (i / 16)).getLsbD (15 - i % 16)

/-- The stream bits `S[c], …, S[c+n-1]` as a number, the earliest most significant (R46). -/
def streamBits (w : Config.AddrWidth) (m : Memory) (ses : Session) (c : Nat) : Nat → Nat
  | 0     => 0
  | n + 1 => 2 * streamBits w m ses c n + (streamBit w m ses (c + n)).toNat

/-- The number of words loaded in the session, `(L0 - LEN) / 2` (R32). -/
def Instance.loadedWords (e : Instance) : Nat := (e.session.len - e.regs.len) / 2

/-- The number of stream bits consumed, `C = 16 n - REM` (R32). -/
def Instance.consumed (e : Instance) : Nat := 16 * e.loadedWords - e.regs.rem.toNat

/-! ### What the instance in service is about to read -/

/-- The number of bits the reads can still return: REM and those of the whole words left (R131). -/
def Regs.available (r : Regs) : Nat := r.rem.toNat + 16 * (r.len / 2)

/-- How many words reads of `n` bits in all load (R91, R98). -/
def Regs.loadsFor (n : Nat) (r : Regs) : Nat := (n - r.rem.toNat + 15) / 16

/-- Word `j` of those not yet loaded. -/
def unloadedWord (w : Config.AddrWidth) (m : Memory) (r : Regs) (j : Nat) : Word :=
  joinBytes (byteAt m (w.wrap (r.ptr + (2 * j + 1)))) (byteAt m (w.wrap (r.ptr + 2 * j)))

/-- The REM unconsumed bits followed by the next two words: the next `REM + 32` bits of the stream,
the earliest most significant. -/
def upcoming (w : Config.AddrWidth) (m : Memory) (r : Regs) : Nat :=
  field r.word.toNat 0 r.rem.toNat * 2 ^ 32 + (unloadedWord w m r 0).toNat * 2 ^ 16
    + (unloadedWord w m r 1).toNat

/-- The next `n` bits of the stream as a number, for `n` up to `REM + 32`. -/
def nextBits (w : Config.AddrWidth) (m : Memory) (r : Regs) (n : Nat) : Nat :=
  upcoming w m r / 2 ^ (r.rem.toNat + 32 - n)

/-- The addresses read by the loads that reads of `n` bits in all make, in order. -/
def Regs.loadAddrs (w : Config.AddrWidth) (n : Nat) (r : Regs) : List Nat :=
  (List.range (2 * r.loadsFor n)).map fun j => w.wrap (r.ptr + j)

/-- The registers after reads of `n` bits in all (R91): each load takes two bytes from the front,
and WORD is the last word loaded, if any. -/
def Regs.advance (w : Config.AddrWidth) (m : Memory) (n : Nat) (r : Regs) : Regs where
  word    := if r.loadsFor n = 0 then r.word else unloadedWord w m r (r.loadsFor n - 1)
  rem     := BitVec.ofNat 5 (r.rem.toNat + 16 * r.loadsFor n - n)
  ptr     := w.wrap (r.ptr + 2 * r.loadsFor n)
  len     := r.len - 2 * r.loadsFor n
  faulted := r.faulted

/-- No byte the loads for `n` bits read is one on which the host broke its duty (R50, R154). -/
def Instance.CleanFor (w : Config.AddrWidth) (n : Nat) (e : Instance) : Prop :=
  ∀ a ∈ e.regs.loadAddrs w n, a ∉ e.session.disturbed

/-- The instance in service after a command that wrote `regs` and answered `status`, `value` after
reading the bytes at `reads`. -/
def Instance.answered (e : Instance) (regs : Regs) (status : Status) (value : Nat)
    (reads : List Nat) : Instance where
  regs     := regs
  session  := e.session
  response := some ⟨status, BitVec.ofNat 32 value⟩
  reads    := reads

/-! ### Invariants -/

/-- The instances of a state. -/
def State.instances (s : State) : List Instance := s.cur :: s.others

/-- The registers hold values of their widths: REM 0..16, PTR and LEN ADDR_W bits (R10, R20, R23). -/
structure Regs.InRange (w : Config.AddrWidth) (r : Regs) : Prop where
  rem_le : r.rem.toNat ≤ 16
  ptr_lt : r.ptr < w.size
  len_lt : r.len < w.size

/-- The cursor of a session (R21, R23, R32): whole words were loaded from the front of its range,
and REM counts bits of loaded words. -/
structure Instance.CursorInv (w : Config.AddrWidth) (e : Instance) : Prop where
  in_range   : e.regs.InRange w
  base_lt    : e.session.base < w.size
  len_lt     : e.session.len < w.size
  len_parity : e.session.len = e.regs.len + 2 * e.loadedWords
  ptr_eq     : e.regs.ptr = e.session.addr w (2 * e.loadedWords)
  rem_loaded : e.regs.rem.toNat ≤ 16 * e.loadedWords

/-- How a session stands to the buffer memory (R32, R50): WORD is the last word loaded, unless the
host broke its duty on one of its bytes; and every write not yet visible that falls in the range is
recorded. -/
structure Instance.MemoryInv (w : Config.AddrWidth) (m : Memory) (pending : List (Nat × Byte))
    (e : Instance) : Prop where
  word_eq : 0 < e.loadedWords →
    e.session.addr w (2 * (e.loadedWords - 1)) ∉ e.session.disturbed →
    e.session.addr w (2 * (e.loadedWords - 1) + 1) ∉ e.session.disturbed →
    e.regs.word = streamWord w m e.session (e.loadedWords - 1)
  pending_noted : ∀ p ∈ pending, e.session.covers w p.1 = true → p.1 ∈ e.session.disturbed
  disturbed_covered : ∀ a ∈ e.session.disturbed, a < w.size ∧ e.session.covers w a = true

/-- The invariant of the system: the memory is in canonical form, the writes not yet visible are to
addresses that exist, and every instance's registers, cursor and session are sound. -/
structure State.Inv (s : State) : Prop where
  mem_wf     : Memory.wf s.addrW s.mem = true
  pending_lt : ∀ p ∈ s.pending, p.1 < s.addrW.size
  cursor     : ∀ e ∈ s.instances, e.CursorInv s.addrW
  memory     : ∀ e ∈ s.instances, e.MemoryInv s.addrW s.mem s.pending

/-- The host has kept its duty in every live session (R50, R154): a safe run. -/
def State.DutyKept (s : State) : Prop := ∀ e ∈ s.instances, e.session.disturbed = []

/-! ### Legal words, and Serve as the rule writes it -/

/-- A legal command word (R64 to R67) in arithmetic: OPC is `CMD mod 16`, CNT is `CMD / 16 mod 32`
and RSV is `CMD / 512` (R61). -/
def LegalWord (cmd : BitVec 32) : Prop :=
  1 ≤ cmd.toNat % 16 ∧ cmd.toNat % 16 ≤ 8 ∧ cmd.toNat / 512 = 0 ∧
    ((cmd.toNat % 16 = 3 ∨ cmd.toNat % 16 = 4) → cmd.toNat / 16 % 32 ≤ 16) ∧
    (¬ (cmd.toNat % 16 = 3 ∨ cmd.toNat % 16 = 4) → cmd.toNat / 16 % 32 = 0)

/-- The instance in service answers `status`, `value` with the registers `regs` after reading
`reads`; nothing else in the system changes but the count of draws. -/
def State.answers (s : State) (regs : Regs) (status : Status) (value : Nat) (reads : List Nat)
    (draws : Nat) : State :=
  { s with cur := s.cur.answered regs status value reads, draws := draws }

/-- `Serve` with its checks one by one as R138 writes them, the command's rule named by its opcode. -/
def serveAsWritten (t : Transaction) (s : State) : Host.Outcome State Fault Refusal :=
  let opc := t.cmd.toNat % 16
  let cnt := t.cmd.toNat / 16 % 32
  let rsv := t.cmd.toNat / 512
  if s.cur.regs.faulted = true then .next (s.answers s.cur.regs .fault 0 [] s.draws)
  else if opc = 0 ∨ 9 ≤ opc then .next (faultEntry (beginCommand s))
  else if rsv ≠ 0 then .next (faultEntry (beginCommand s))
  else if ¬ (opc = 3 ∨ opc = 4) ∧ cnt ≠ 0 then .next (faultEntry (beginCommand s))
  else if (opc = 3 ∨ opc = 4) ∧ 16 < cnt then .next (faultEntry (beginCommand s))
  else if opc = 1 then exec (.init t.base t.blen) s
  else if opc = 2 then exec .rdbit s
  else if opc = 3 then exec (.rdbits (BitVec.ofNat 5 cnt)) s
  else if opc = 4 then exec (.pkbits (BitVec.ofNat 5 cnt)) s
  else if opc = 5 then exec .rdu16le s
  else if opc = 6 then exec .rdu32le s
  else if opc = 7 then exec .rdu24be s
  else exec .isempty s

/-! ### Packed streams (R99) -/

/-- The width in bits of the values packed one after another. -/
def packedWidth (fs : List (Count × Nat)) : Nat := (fs.map fun f => f.1.toNat).sum

/-- The values packed MSB-first into one number, the first most significant. -/
def packed (fs : List (Count × Nat)) : Nat := fs.foldl (fun acc f => acc * 2 ^ f.1.toNat + f.2) 0

/-- The number of 16-bit words the padded bit string is cut into. -/
def packedWords (fs : List (Count × Nat)) : Nat := (packedWidth fs + 15) / 16

/-- Word `k` of the bit string padded with zero bits to a multiple of 16. -/
def packedWord (fs : List (Count × Nat)) (k : Nat) : Nat :=
  packed fs * 2 ^ (16 * packedWords fs - packedWidth fs) / 2 ^ (16 * (packedWords fs - 1 - k)) % 2 ^ 16

/-! ### Sequences of commands -/

/-- Commands served one after another by the instance in service, each answered before the next is
issued (R60, R155): their responses and the state after the last; none if one stops. -/
def runCommands : List Instr → State → Option (List (Option Response) × State)
  | [], s => some ([], s)
  | i :: is, s =>
    match exec i s with
    | .next t =>
      match runCommands is t with
      | some (rs, u) => some (t.cur.response :: rs, u)
      | none         => none
    | _ => none

end Sys2Proof.Machine
end

