-- ==== Sys2Proof/Certificates/Slice0/Obligations.lean ====
section
/-! DEFINITION. The statements for the provers. Nothing is proved here. -/

open Sys2Proof Sys2Proof.Machine

/-! ### Encoding -/

/-- R72: words written out from the encoding decode to the commands they stand for. -/
def Obligations.SampleWordsDecodeToTheirCommands : Prop :=
  decode ⟨0x00000001, 0x1000, 4⟩ = .ok (.init 0x1000 4) ∧
  decode ⟨0x00000002, 0, 0⟩ = .ok .rdbit ∧
  decode ⟨0x00000003, 0, 0⟩ = .ok (.rdbits 0) ∧
  decode ⟨0x00000013, 0, 0⟩ = .ok (.rdbits 1) ∧
  decode ⟨0x00000103, 0, 0⟩ = .ok (.rdbits 16) ∧
  decode ⟨0x00000104, 0, 0⟩ = .ok (.pkbits 16) ∧
  decode ⟨0x00000005, 0, 0⟩ = .ok .rdu16le ∧
  decode ⟨0x00000006, 0, 0⟩ = .ok .rdu32le ∧
  decode ⟨0x00000007, 0, 0⟩ = .ok .rdu24be ∧
  decode ⟨0x00000008, 0, 0⟩ = .ok .isempty

/-- 30_encoding.md: every well-formed instruction is what its encoding decodes to, with every operand
at every legal value. -/
def Obligations.DecodeOfEncodeIsTheInstruction : Prop :=
  ∀ i : Instr, i.wellFormed = true → decode (encode i) = .ok i

/-- 30_encoding.md: the other direction. What decodes is well formed, its encoding has the same command
word, and for INIT the same side operands. -/
def Obligations.DecodedCommandEncodesToItsWord : Prop :=
  ∀ (t : Transaction) (i : Instr), decode t = .ok i →
    i.wellFormed = true ∧ (encode i).cmd = t.cmd ∧
      ((∃ base blen, i = .init base blen) → encode i = t)

/-- R63, the opcode map with its match and mask pairs: which words select which command. -/
def Obligations.CommandsAreSelectedByMatchAndMask : Prop :=
  ∀ t : Transaction,
    (∀ base blen, decode t = .ok (.init base blen) ↔
      t.cmd &&& 0xFFFFFFFF = 0x1 ∧ base = t.base ∧ blen = t.blen) ∧
    (decode t = .ok .rdbit ↔ t.cmd &&& 0xFFFFFFFF = 0x2) ∧
    (∀ c, decode t = .ok (.rdbits c) ↔
      t.cmd &&& 0xFFFFFE0F = 0x3 ∧ c.toNat = t.cmd.toNat / 16 % 32 ∧ c.toNat ≤ 16) ∧
    (∀ c, decode t = .ok (.pkbits c) ↔
      t.cmd &&& 0xFFFFFE0F = 0x4 ∧ c.toNat = t.cmd.toNat / 16 % 32 ∧ c.toNat ≤ 16) ∧
    (decode t = .ok .rdu16le ↔ t.cmd &&& 0xFFFFFFFF = 0x5) ∧
    (decode t = .ok .rdu32le ↔ t.cmd &&& 0xFFFFFFFF = 0x6) ∧
    (decode t = .ok .rdu24be ↔ t.cmd &&& 0xFFFFFFFF = 0x7) ∧
    (decode t = .ok .isempty ↔ t.cmd &&& 0xFFFFFFFF = 0x8)

/-- R69: the words that select a command are exactly the legal ones. -/
def Obligations.DecoderAcceptsExactlyTheLegalWords : Prop :=
  ∀ t : Transaction, (∃ i, decode t = .ok i) ↔ LegalWord t.cmd

/-- R68: BASE and BLEN are ignored by every command but INIT, and no value of them is illegal. -/
def Obligations.SideOperandsMatterOnlyToInit : Prop :=
  ∀ t t' : Transaction, t.cmd = t'.cmd →
    ((∃ i, decode t = .ok i) ↔ (∃ i, decode t' = .ok i)) ∧
    (t.cmd.toNat % 16 ≠ 1 → ∀ s, serve t s = serve t' s)

/-! ### Serving a command -/

/-- R60, R69: a step whose first event is a command to instance `k` runs the decoded instruction's
meaning on that instance, and puts the instance back in its place. -/
def Obligations.StepServesTheDecodedCommand : Prop :=
  ∀ (s : State) (k : Nat) (t : Transaction) (rest : List HostEvent) (i : Instr),
    s.inputs = .command k t :: rest → k ≤ s.others.length → decode t = .ok i →
    step s = mapNext (State.swap k) (exec i (State.swap k { s with inputs := rest }))

/-- R138: Serve is the checks as the rule writes them, in their order, and then the command. -/
def Obligations.ServeFollowsTheCommonChecks : Prop :=
  ∀ (t : Transaction) (s : State), serve t s = serveAsWritten t s

/-- R64 to R67 and R135: a word with a reserved opcode, a reserved bit, a stray count or a count
above 16 takes the fault entry; the instance's other registers, every other instance and the memory
are as before, and nothing is read. -/
def Obligations.IllegalWordTakesTheFaultEntry : Prop :=
  ∀ (s : State) (k : Nat) (t : Transaction) (rest : List HostEvent) (e : Instance),
    s.inputs = .command k t :: rest → s.inst k = some e → e.regs.faulted = false →
    ¬ LegalWord t.cmd →
    ∃ u, step s = .next u ∧
      u.inst k = some (e.answered { e.regs with faulted := true } .fault 0 []) ∧
      (∀ j, j ≠ k → u.inst j = s.inst j) ∧
      (∀ a, byteAt u.mem a = byteAt s.mem a) ∧ u.mem = s.mem ∧ u.pending = s.pending ∧
      u.draws = s.draws ∧ u.inputs = rest

/-- R136: while FAULTED = 1 every command, INIT included and illegal words too, is answered
(FAULT, 0), changes no register and reads nothing; and FAULTED stays until a reset of the instance. -/
def Obligations.FaultedEngineAnswersFaultUntilReset : Prop :=
  (∀ s : State, s.cur.regs.faulted = true →
    (∀ t, serve t s = .next (s.answers s.cur.regs .fault 0 [] s.draws)) ∧
    (∀ i, exec i s = .next (s.answers s.cur.regs .fault 0 [] s.draws))) ∧
  (∀ (s u : State) (k : Nat) (e : Instance), step s = .next u → s.inst k = some e →
    e.regs.faulted = true →
    (∃ e', u.inst k = some e' ∧ e'.regs = e.regs) ∨
    (∃ rest, s.inputs = .reset k :: rest) ∨
    (∃ t rest, s.inputs = .resetDuring k t :: rest))

/-- R27, R29: no step sets an instance's FAULTED but the fault entry, for an illegal word sent to it. -/
def Obligations.FaultedIsSetOnlyByTheFaultEntry : Prop :=
  ∀ (s u : State) (k : Nat) (e e' : Instance), step s = .next u → s.inst k = some e →
    u.inst k = some e' → e.regs.faulted = false → e'.regs.faulted = true →
    (∃ t rest, s.inputs = .command k t :: rest ∧ ¬ LegalWord t.cmd) ∧
      e' = e.answered { e.regs with faulted := true } .fault 0 []

/-- R70: every command gets one response; VALUE is 0 when STATUS is not OK and for INIT, and STATUS 3
is never produced. -/
def Obligations.ErrorsCarryValueZero : Prop :=
  ∀ (t : Transaction) (s : State), ∃ u r, serve t s = .next u ∧ u.cur.response = some r ∧
    (r.status ≠ .ok → r.value = 0) ∧ r.status.code ≠ 3 ∧
    ((∃ base blen, decode t = .ok (.init base blen)) → r.value = 0)

/-! ### INIT -/

/-- R80: INIT, whose word is 0x00000001, begins a session over the range it names and reads nothing,
whatever its operands, which are numbers of ADDR_W bits; a FAULTED engine turns it away. The bytes
`d` the session notes are the model's record (log 4; the next statement says which they are). -/
def Obligations.InitStartsASession : Prop :=
  ∀ (s : State) (base blen : Nat),
    encode (.init base blen) = ⟨0x00000001, base, blen⟩ ∧
    (s.cur.regs.faulted = false → base < 2 ^ s.addrW.bits → blen < 2 ^ s.addrW.bits → ∃ d,
      exec (.init base blen) s = .next { s with cur := {
        regs     := { word := 0x0000, rem := 0, ptr := base, len := blen, faulted := false }
        session  := { base := base, len := blen, disturbed := d }
        response := some ⟨.ok, 0⟩
        reads    := [] } }) ∧
    (s.cur.regs.faulted = true →
      exec (.init base blen) s = .next (s.answers s.cur.regs .fault 0 [] s.draws))

/-- R154, U6 (the record is the model's, log 4): the bytes of the range whose write is not visible at
INIT, and no others, are noted. -/
def Obligations.InitNotesTheWritesNotYetVisible : Prop :=
  ∀ (s t : State) (base blen : Nat), s.cur.regs.faulted = false →
    base < 2 ^ s.addrW.bits → blen < 2 ^ s.addrW.bits →
    exec (.init base blen) s = .next t → ∀ a, a < 2 ^ s.addrW.bits →
    (a ∈ t.cur.session.disturbed ↔
      (∃ k, k < blen ∧ a = (base + k) % 2 ^ s.addrW.bits) ∧ ∃ b, (a, b) ∈ s.pending)

/-! ### Reads -/

/-- R91, R92: READ_BITS, whose word is `0x00000003 | (count << 4)`. Within the lookahead it takes bits and loads nothing; across a word boundary
it loads one word as the port gives it, the earlier fragment high; with fewer than two bytes left it
underflows and changes nothing; a count above 16 faults. -/
def Obligations.ReadBitsFollowsItsRule : Prop :=
  ∀ (s : State) (c : Count),
    (encode (.rdbits c)).cmd = 0x00000003 ||| (c.setWidth 32 <<< 4) ∧
    (s.cur.regs.faulted = true →
      exec (.rdbits c) s = .next (s.answers s.cur.regs .fault 0 [] s.draws)) ∧
    (s.cur.regs.faulted = false → 16 < c.toNat →
      exec (.rdbits c) s
        = .next (s.answers { s.cur.regs with faulted := true } .fault 0 [] s.draws)) ∧
    (s.cur.regs.faulted = false → c.toNat ≤ 16 → c.toNat ≤ s.cur.regs.rem.toNat →
      exec (.rdbits c) s = .next (s.answers { s.cur.regs with rem := s.cur.regs.rem - c } .ok
        (s.cur.regs.word.toNat / 2 ^ (s.cur.regs.rem.toNat - c.toNat) % 2 ^ c.toNat) [] s.draws)) ∧
    (s.cur.regs.faulted = false → c.toNat ≤ 16 → s.cur.regs.rem.toNat < c.toNat →
      s.cur.regs.len < 2 →
      exec (.rdbits c) s = .next (s.answers s.cur.regs .underflow 0 [] s.draws)) ∧
    (s.cur.regs.faulted = false → c.toNat ≤ 16 → s.cur.regs.rem.toNat < c.toNat →
      2 ≤ s.cur.regs.len → ∀ b0 b1 s0 s1,
      memRead s.cur.regs.ptr (beginCommand s) = (b0, s0) →
      memRead (s.cur.regs.ptr + 1) s0 = (b1, s1) →
      exec (.rdbits c) s = .next (s.answers
        { word    := b1 ++ b0
          rem     := 16 - (c - s.cur.regs.rem)
          ptr     := (s.cur.regs.ptr + 2) % 2 ^ s.addrW.bits
          len     := s.cur.regs.len - 2
          faulted := false } .ok
        (s.cur.regs.word.toNat % 2 ^ s.cur.regs.rem.toNat * 2 ^ (c.toNat - s.cur.regs.rem.toNat)
          + (b1 ++ b0).toNat / 2 ^ (16 - (c.toNat - s.cur.regs.rem.toNat)))
        [s.cur.regs.ptr % 2 ^ s.addrW.bits, (s.cur.regs.ptr + 1) % 2 ^ s.addrW.bits] s1.draws))

/-- R93: READ_BIT, whose word is 0x00000002, takes the top unconsumed bit, or bit 15 of the word it loads. -/
def Obligations.ReadBitFollowsItsRule : Prop :=
  (encode .rdbit).cmd = 0x00000002 ∧ ∀ s : State,
    (s.cur.regs.faulted = true →
      exec .rdbit s = .next (s.answers s.cur.regs .fault 0 [] s.draws)) ∧
    (s.cur.regs.faulted = false → 0 < s.cur.regs.rem.toNat →
      exec .rdbit s = .next (s.answers { s.cur.regs with rem := s.cur.regs.rem - 1 } .ok
        (s.cur.regs.word.getLsbD (s.cur.regs.rem.toNat - 1)).toNat [] s.draws)) ∧
    (s.cur.regs.faulted = false → s.cur.regs.rem = 0 → s.cur.regs.len < 2 →
      exec .rdbit s = .next (s.answers s.cur.regs .underflow 0 [] s.draws)) ∧
    (s.cur.regs.faulted = false → s.cur.regs.rem = 0 → 2 ≤ s.cur.regs.len → ∀ b0 b1 s0 s1,
      memRead s.cur.regs.ptr (beginCommand s) = (b0, s0) →
      memRead (s.cur.regs.ptr + 1) s0 = (b1, s1) →
      exec .rdbit s = .next (s.answers
        { word    := b1 ++ b0
          rem     := 15
          ptr     := (s.cur.regs.ptr + 2) % 2 ^ s.addrW.bits
          len     := s.cur.regs.len - 2
          faulted := false } .ok
        ((b1 ++ b0).getLsbD 15).toNat
        [s.cur.regs.ptr % 2 ^ s.addrW.bits, (s.cur.regs.ptr + 1) % 2 ^ s.addrW.bits] s1.draws))

/-- 41_bit_extraction.md, 42_marshaling.md: where enough bits are left and the host kept its duty on
the bytes to be loaded, each reading command answers the next bits of the stream in its arrangement,
and the registers advance past them. -/
def Obligations.ReadCommandsReturnTheNextBits : Prop :=
  ∀ (i : Instr) (n : Nat) (s : State), i.wellFormed = true → i.readWidth = some n →
    s.cur.regs.faulted = false → s.cur.regs.InRange s.addrW → n ≤ s.cur.regs.available →
    s.cur.CleanFor s.addrW n →
    exec i s = .next (s.answers (s.cur.regs.advance s.addrW s.mem n) .ok
      (i.arrange (nextBits s.addrW s.mem s.cur.regs n)) (s.cur.regs.loadAddrs s.addrW n) s.draws)

/-- 20_memory.md R50, 41_bit_extraction.md: whatever the host did to the bytes, a reading command with
enough bits left completes with OK, and PTR, LEN, REM and the bytes read are those of its width. -/
def Obligations.ReadsCompleteWhateverTheHostWrote : Prop :=
  ∀ (i : Instr) (n : Nat) (s : State), i.wellFormed = true → i.readWidth = some n →
    s.cur.regs.faulted = false → s.cur.regs.InRange s.addrW → n ≤ s.cur.regs.available →
    ∃ w v d, v < 2 ^ n ∧
      exec i s = .next (s.answers { s.cur.regs.advance s.addrW s.mem n with word := w } .ok v
        (s.cur.regs.loadAddrs s.addrW n) d)

/-- R131: a command underflows exactly when it wants more bits than REM and the whole words left hold;
PEEK_BITS, IS_EMPTY and INIT never do. -/
def Obligations.UnderflowExactlyWhenBitsAreMissing : Prop :=
  ∀ (i : Instr) (s : State), i.wellFormed = true → s.cur.regs.faulted = false →
    ∃ t r, exec i s = .next t ∧ t.cur.response = some r ∧
      (r.status = .underflow ↔ ∃ n, i.readWidth = some n ∧ s.cur.regs.available < n)

/-- R132: an underflow leaves FAULTED clear, the registers as before the command, or for READ_U32_LE
and READ_U24_BE as after its first 16 bits; and a later INIT, or a command REM can serve, succeeds. -/
def Obligations.UnderflowIsRecoverable : Prop :=
  ∀ (i : Instr) (s t : State), exec i s = .next t → t.cur.response = some ⟨.underflow, 0⟩ →
    t.cur.regs.faulted = false ∧
    (t = s.answers s.cur.regs .underflow 0 [] s.draws ∨
      (i = .rdu32le ∨ i = .rdu24be) ∧ ∃ u v, exec (.rdbits 16) s = .next u ∧
        u.cur.response = some ⟨.ok, v⟩ ∧
        t = u.answers u.cur.regs .underflow 0 u.cur.reads u.draws) ∧
    (∀ base blen, ∃ u, exec (.init base blen) t = .next u ∧ u.cur.response = some ⟨.ok, 0⟩) ∧
    (∀ (j : Instr) (n : Nat), j.wellFormed = true → j.readWidth = some n →
      n ≤ t.cur.regs.rem.toNat →
      ∃ u v, exec j t = .next u ∧ u.cur.response = some ⟨.ok, v⟩)

/-- R110: where the first of two ReadBits steps underflows nothing changes; where the second does, all
that a READ_BITS of 16 does stays committed and the answer is (UNDERFLOW, 0). -/
def Obligations.SecondUnderflowKeepsTheFirstStep : Prop :=
  ∀ (i : Instr) (n : Nat) (s : State),
    (i = .rdu32le ∧ n = 32 ∨ i = .rdu24be ∧ n = 24) → s.cur.regs.faulted = false →
    (s.cur.regs.available < 16 →
      exec i s = .next (s.answers s.cur.regs .underflow 0 [] s.draws)) ∧
    (16 ≤ s.cur.regs.available → s.cur.regs.available < n → ∃ t,
      exec (.rdbits 16) s = .next t ∧
      exec i s = .next (t.answers t.cur.regs .underflow 0 t.cur.reads t.draws)) ∧
    (s.cur.regs.available < 16 →
      exec .rdu16le s = .next (s.answers s.cur.regs .underflow 0 [] s.draws))

/-- R111: READ_U16_LE, whose word is 0x00000005, is a READ_BITS of 16 with the two bytes of the value
swapped; where that read does not complete, it answers the same. -/
def Obligations.ReadU16LeSwapsTheBytes : Prop :=
  (encode .rdu16le).cmd = 0x00000005 ∧ ∀ s t : State, exec (.rdbits 16) s = .next t → ∀ r, t.cur.response = some r →
    (r.status = .ok → exec .rdu16le s = .next (t.answers t.cur.regs .ok
      (r.value.toNat % 256 * 256 + r.value.toNat / 256) t.cur.reads t.draws)) ∧
    (r.status ≠ .ok → exec .rdu16le s = .next t)

/-- R112: READ_U32_LE, whose word is 0x00000006, is two READ_U16_LE, the first value low. Where the first
does not complete it answers as that does; where the second does not, it underflows and what the
first did stays. -/
def Obligations.ReadU32LeIsTwoReadU16Le : Prop :=
  (encode .rdu32le).cmd = 0x00000006 ∧
  ∀ (s t : State) (r : Response), exec .rdu16le s = .next t → t.cur.response = some r →
    (r.status ≠ .ok → exec .rdu32le s = .next t) ∧
    (r.status = .ok → ∀ (u : State) (q : Response), exec .rdu16le t = .next u →
      u.cur.response = some q →
      (q.status ≠ .ok → exec .rdu32le s
        = .next (t.answers t.cur.regs .underflow 0 t.cur.reads t.draws)) ∧
      (q.status = .ok → exec .rdu32le s = .next (u.answers u.cur.regs .ok
        (q.value.toNat * 2 ^ 16 + r.value.toNat) (t.cur.reads ++ u.cur.reads) u.draws)))

/-- R113, R115: READ_U24_BE, whose word is 0x00000007, is a READ_BITS of 16 and one of 8, the first value
high and no byte swapped. Where the first does not complete it answers as that does; where the
second does not, it underflows and what the first did stays. -/
def Obligations.ReadU24BeIsARunOf24Bits : Prop :=
  (encode .rdu24be).cmd = 0x00000007 ∧
  ∀ (s t : State) (r : Response), exec (.rdbits 16) s = .next t → t.cur.response = some r →
    (r.status ≠ .ok → exec .rdu24be s = .next t) ∧
    (r.status = .ok → ∀ (u : State) (q : Response), exec (.rdbits 8) t = .next u →
      u.cur.response = some q →
      (q.status ≠ .ok → exec .rdu24be s
        = .next (t.answers t.cur.regs .underflow 0 t.cur.reads t.draws)) ∧
      (q.status = .ok → exec .rdu24be s = .next (u.answers u.cur.regs .ok
        (r.value.toNat * 2 ^ 8 + q.value.toNat) (t.cur.reads ++ u.cur.reads) u.draws)))

/-- R114: at a word boundary, with the next stream bytes `b0 b1 b2 b3` in address order, READ_U16_LE
answers `b0 b1` big-endian and READ_U32_LE answers `b2 b3 b0 b1`. The boundary is REM = 0, or REM = 16
where WORD already holds `b1 b0`. -/
def Obligations.AlignedMarshaling : Prop :=
  ∀ (s : State) (b0 b1 b2 b3 : Byte),
    let next k := byteAt s.mem ((s.cur.regs.ptr + k) % 2 ^ s.addrW.bits)
    s.cur.regs.faulted = false →
    s.cur.session.disturbed = [] →
    (s.cur.regs.rem = 0 ∧ 4 ≤ s.cur.regs.len ∧ next 0 = b0 ∧ next 1 = b1 ∧ next 2 = b2 ∧
        next 3 = b3 ∨
      s.cur.regs.rem = 16 ∧ 2 ≤ s.cur.regs.len ∧ s.cur.regs.word = b1 ++ b0 ∧ next 0 = b2 ∧
        next 1 = b3) →
    (∃ t, exec .rdu16le s = .next t ∧ t.cur.response
      = some ⟨.ok, BitVec.ofNat 32 (b0.toNat * 2 ^ 8 + b1.toNat)⟩) ∧
    (∃ t, exec .rdu32le s = .next t ∧ t.cur.response = some ⟨.ok, BitVec.ofNat 32
      (b2.toNat * 2 ^ 24 + b3.toNat * 2 ^ 16 + b0.toNat * 2 ^ 8 + b1.toNat)⟩)

/-- R52: addresses wrap modulo `2^ADDR_W`, for every width. A load takes the bytes at PTR and PTR + 1 and
PTR goes on by 2, all modulo `2^ADDR_W`: at the top of the address space the second byte is that of
address 0 and PTR goes on from address 1, and one below it PTR goes on from address 0. -/
def Obligations.LoadWrapsAtTheTopOfMemory : Prop :=
  ∀ s : State, s.cur.regs.faulted = false → s.cur.regs.rem = 0 → 2 ≤ s.cur.regs.len →
    ∃ t, exec (.rdbits 16) s = .next t ∧ t.cur.regs.len + 2 = s.cur.regs.len ∧
      t.cur.regs.ptr = (s.cur.regs.ptr + 2) % 2 ^ s.addrW.bits ∧
      t.cur.reads
        = [s.cur.regs.ptr % 2 ^ s.addrW.bits, (s.cur.regs.ptr + 1) % 2 ^ s.addrW.bits] ∧
      (s.cur.regs.ptr + 1 = 2 ^ s.addrW.bits →
        t.cur.reads = [2 ^ s.addrW.bits - 1, 0] ∧ t.cur.regs.ptr = 1) ∧
      (s.cur.regs.ptr + 2 = 2 ^ s.addrW.bits → t.cur.regs.ptr = 0)

/-! ### Peeks -/

/-- R94, R100: PEEK_BITS, whose word is `0x00000004 | (count << 4)`. The value READ_BITS would take from the lookahead and the next word, each
missing byte zero; no register changes; only the bytes named are read; a count above 16 faults. -/
def Obligations.PeekFollowsItsRule : Prop :=
  ∀ (s : State) (c : Count),
    (encode (.pkbits c)).cmd = 0x00000004 ||| (c.setWidth 32 <<< 4) ∧
    (s.cur.regs.faulted = true →
      exec (.pkbits c) s = .next (s.answers s.cur.regs .fault 0 [] s.draws)) ∧
    (s.cur.regs.faulted = false → 16 < c.toNat →
      exec (.pkbits c) s
        = .next (s.answers { s.cur.regs with faulted := true } .fault 0 [] s.draws)) ∧
    (s.cur.regs.faulted = false → c.toNat ≤ 16 → c.toNat ≤ s.cur.regs.rem.toNat →
      exec (.pkbits c) s = .next (s.answers s.cur.regs .ok
        (s.cur.regs.word.toNat / 2 ^ (s.cur.regs.rem.toNat - c.toNat) % 2 ^ c.toNat) [] s.draws)) ∧
    (s.cur.regs.faulted = false → c.toNat ≤ 16 → s.cur.regs.rem.toNat < c.toNat →
      ∀ b0 b1 s0 s1, memRead s.cur.regs.ptr (beginCommand s) = (b0, s0) →
      memRead (s.cur.regs.ptr + 1) s0 = (b1, s1) →
      (s.cur.regs.len = 0 → exec (.pkbits c) s = .next (s.answers s.cur.regs .ok
        (s.cur.regs.word.toNat % 2 ^ s.cur.regs.rem.toNat * 2 ^ (c.toNat - s.cur.regs.rem.toNat))
        [] s.draws)) ∧
      (s.cur.regs.len = 1 → exec (.pkbits c) s = .next (s.answers s.cur.regs .ok
        (s.cur.regs.word.toNat % 2 ^ s.cur.regs.rem.toNat * 2 ^ (c.toNat - s.cur.regs.rem.toNat)
          + b0.toNat / 2 ^ (16 - (c.toNat - s.cur.regs.rem.toNat)))
        [s.cur.regs.ptr % 2 ^ s.addrW.bits] s0.draws)) ∧
      (2 ≤ s.cur.regs.len → exec (.pkbits c) s = .next (s.answers s.cur.regs .ok
        (s.cur.regs.word.toNat % 2 ^ s.cur.regs.rem.toNat * 2 ^ (c.toNat - s.cur.regs.rem.toNat)
          + (b1 ++ b0).toNat / 2 ^ (16 - (c.toNat - s.cur.regs.rem.toNat)))
        [s.cur.regs.ptr % 2 ^ s.addrW.bits, (s.cur.regs.ptr + 1) % 2 ^ s.addrW.bits] s1.draws)))

/-- R95: PEEK_BITS never underflows, and it is the only reading command that never does; where the
host kept its duty, a peek changes the result of no later command, a second peek's among them. -/
def Obligations.PeekDisturbsNoLaterCommand : Prop :=
  (∀ (s : State) (c : Count), c.toNat ≤ 16 →
    ∃ t r, exec (.pkbits c) s = .next t ∧ t.cur.response = some r ∧ r.status ≠ .underflow ∧
      ((1 ≤ s.cur.regs.len →
          s.cur.regs.ptr % 2 ^ s.addrW.bits ∉ s.cur.session.disturbed) →
        (2 ≤ s.cur.regs.len →
          (s.cur.regs.ptr + 1) % 2 ^ s.addrW.bits ∉ s.cur.session.disturbed) →
        (∀ i, exec i t = exec i s) ∧ exec (.pkbits c) t = .next t)) ∧
  (∀ (i : Instr) (n : Nat), i.wellFormed = true → i.firstRead = some n → 0 < n →
    ∃ s t, exec i s = .next t ∧ t.cur.response = some ⟨.underflow, 0⟩)

/-- R96: a peek answers what the read of the same count would; where that read underflows, the peek
answers the REM bits left and then bits of the zero-padded next word. -/
def Obligations.PeekAgreesWithRead : Prop :=
  ∀ (s : State) (c : Count), s.cur.regs.faulted = false → c.toNat ≤ 16 →
    (c.toNat ≤ s.cur.regs.rem.toNat ∨ 2 ≤ s.cur.regs.len →
      ∃ t u v, exec (.pkbits c) s = .next t ∧ exec (.rdbits c) s = .next u ∧
        t.cur.response = some ⟨.ok, v⟩ ∧ u.cur.response = some ⟨.ok, v⟩) ∧
    (s.cur.regs.rem.toNat < c.toNat → s.cur.regs.len < 2 →
      ∃ t u, exec (.pkbits c) s = .next t ∧ exec (.rdbits c) s = .next u ∧
        u.cur.response = some ⟨.underflow, 0⟩ ∧
        t.cur.response = some ⟨.ok, BitVec.ofNat 32
          (s.cur.regs.word.toNat % 2 ^ s.cur.regs.rem.toNat * 2 ^ (c.toNat - s.cur.regs.rem.toNat)
            + (if s.cur.regs.len = 1 then
                (memRead s.cur.regs.ptr (beginCommand s)).1.toNat else 0)
              / 2 ^ (16 - (c.toNat - s.cur.regs.rem.toNat)))⟩)

/-- R97: a count of 0 answers (OK, 0) and changes nothing, for reads and peeks. -/
def Obligations.CountZeroChangesNothing : Prop :=
  ∀ s : State, s.cur.regs.faulted = false →
    exec (.rdbits 0) s = .next (s.answers s.cur.regs .ok 0 [] s.draws) ∧
    exec (.pkbits 0) s = .next (s.answers s.cur.regs .ok 0 [] s.draws)

/-! ### IS_EMPTY -/

/-- R120: IS_EMPTY, whose word is 0x00000008, answers 1 exactly when no whole word is left and the unconsumed bits are zero; it
changes no register and reads nothing. -/
def Obligations.IsEmptyFollowsItsRule : Prop :=
  (encode .isempty).cmd = 0x00000008 ∧ ∀ s : State,
    (s.cur.regs.faulted = true →
      exec .isempty s = .next (s.answers s.cur.regs .fault 0 [] s.draws)) ∧
    (s.cur.regs.faulted = false →
      exec .isempty s = .next (s.answers s.cur.regs .ok
        (if s.cur.regs.len < 2 ∧ s.cur.regs.word.toNat % 2 ^ s.cur.regs.rem.toNat = 0
          then 1 else 0) [] s.draws))

/-- R122: IS_EMPTY answers 0 while a non-zero bit is unconsumed or a whole word is unloaded, and 1
right after reset and right after an INIT of fewer than two bytes. -/
def Obligations.IsEmptySeesEveryRemainingBit : Prop :=
  (∀ s : State, s.cur.regs.faulted = false →
    ((∃ i, i < s.cur.regs.rem.toNat ∧ s.cur.regs.word.getLsbD i = true) ∨
      2 ≤ s.cur.regs.len) →
    ∃ t, exec .isempty s = .next t ∧ t.cur.response = some ⟨.ok, 0⟩) ∧
  (∀ s : State, s.cur.regs = Regs.reset →
    ∃ t, exec .isempty s = .next t ∧ t.cur.response = some ⟨.ok, 1⟩) ∧
  (∀ (s : State) (base blen : Nat), s.cur.regs.faulted = false → blen < 2 →
    ∃ t u, exec (.init base blen) s = .next t ∧ exec .isempty t = .next u ∧
      u.cur.response = some ⟨.ok, 1⟩)

/-! ### Rules over all commands -/

/-- Frame, all commands (10_state.md R21, R22, R28, R29; 20_memory.md R40): a command changes no other
instance, no byte of memory and nothing of the host's; only INIT changes the session; PEEK_BITS and
IS_EMPTY change no register; FAULTED is changed by no well-formed command. -/
def Obligations.CommandFrame : Prop :=
  ∀ (i : Instr) (s t : State), exec i s = .next t →
    t.addrW = s.addrW ∧ t.others = s.others ∧ (∀ a, byteAt t.mem a = byteAt s.mem a) ∧ t.mem = s.mem ∧
    t.pending = s.pending ∧ t.inputs = s.inputs ∧
    ((∀ base blen, i ≠ .init base blen) → t.cur.session = s.cur.session) ∧
    (i.wellFormed = true → t.cur.regs.faulted = s.cur.regs.faulted) ∧
    (((∃ c, i = .pkbits c) ∨ i = .isempty) → i.wellFormed = true → t.cur.regs = s.cur.regs)

/-- R21: PTR and LEN change by loads alone, which take two bytes from the front, but for INIT, which
sets them to its operands (numbers of ADDR_W bits), and reset; where no word was loaded WORD is kept (R22). -/
def Obligations.ViewShrinksOnlyFromTheFront : Prop :=
  ∀ (s u : State) (k : Nat) (e e' : Instance), step s = .next u → s.inst k = some e →
    u.inst k = some e' →
    (∃ m, m ≤ 2 ∧ e'.regs.len + 2 * m = e.regs.len ∧
      (m = 0 → e'.regs.ptr = e.regs.ptr ∧ e'.regs.word = e.regs.word) ∧
      (0 < m → e'.regs.ptr = (e.regs.ptr + 2 * m) % 2 ^ s.addrW.bits)) ∨
    (∃ t rest base blen, s.inputs = .command k t :: rest ∧ decode t = .ok (.init base blen) ∧
      (base < 2 ^ s.addrW.bits → e'.regs.ptr = base) ∧
      (blen < 2 ^ s.addrW.bits → e'.regs.len = blen)) ∨
    (((∃ rest, s.inputs = .reset k :: rest) ∨ (∃ t rest, s.inputs = .resetDuring k t :: rest)) ∧
      e'.regs = Regs.reset)

/-- R26: the value of WORD is unobservable while REM = 0. -/
def Obligations.WordIsUnobservableWhenExhausted : Prop :=
  ∀ (i : Instr) (s t : State) (w : Word), s.cur.regs.rem = 0 → exec i s = .next t →
    ∃ t', exec i (setRegs { s.cur.regs with word := w } s) = .next t' ∧
      t'.cur.response = t.cur.response ∧ t'.cur.reads = t.cur.reads ∧
      (t' = t ∨ t.cur.regs.rem = 0 ∧ t' = setRegs { t.cur.regs with word := w } t)

/-- R157: every command completes with a response, within its bound of byte reads; one answered FAULT
reads nothing. -/
def Obligations.EveryCommandCompletesWithinItsReads : Prop :=
  ∀ (i : Instr) (s : State), ∃ t r, exec i s = .next t ∧ t.cur.response = some r ∧
    t.cur.reads.length ≤ i.maxReads ∧ (r.status = .fault → t.cur.reads = [])

/-- R48, R49: what a command reads is a first part of the bytes at PTR, PTR + 1, PTR + 2, PTR + 3 modulo
`2^ADDR_W`, in that order, and never more bytes than LEN; a command that REM can serve reads nothing. -/
def Obligations.CommandsReadOnlyTheFrontOfTheBuffer : Prop :=
  ∀ (i : Instr) (s t : State), exec i s = .next t →
    (∃ m, m ≤ s.cur.regs.len ∧ t.cur.reads =
      (List.map (fun k => (s.cur.regs.ptr + k) % 2 ^ s.addrW.bits) [0, 1, 2, 3]).take m) ∧
    (∀ n, i.readWidth = some n → n ≤ s.cur.regs.rem.toNat → t.cur.reads = [])

/-- R25 (informative): the source's rotating register, computed from WORD and REM, holds the
unconsumed bits in its high positions with the next bit in bit 15, and consuming bits rotates it. -/
def Obligations.RotatedWordHoldsTheUnconsumedBitsHigh : Prop :=
  ∀ (word : Word) (rem : Nat), rem ≤ 16 →
    rotated word rem < 2 ^ 16 ∧
    rotated word rem / 2 ^ (16 - rem) = word.toNat % 2 ^ rem ∧
    (0 < rem → rotated word rem / 2 ^ 15 = (word.getLsbD (rem - 1)).toNat) ∧
    (∀ n, n ≤ rem → rotated word (rem - n) = rotl16 (rotated word rem) (n % 16))

/-! ### Reset, the host and the system -/

/-- R33: every register of every instance has its reset value after reset, for any address width and any
number of instances. -/
def Obligations.ResetValuesAreThoseOfTheSpec : Prop :=
  ∀ (w : Config.AddrWidth) (n : Nat), ∀ e ∈ (State.resetSystem w n).instances,
    e.regs = { word := 0x0000, rem := 0, ptr := 0, len := 0, faulted := false }

/-- R150: an instance's reset sets every register of it to its reset value and nothing else in the
system changes; a command in progress is abandoned with no response, and what it had read is some
first part of its reads. (That a reset instance holds no response is the model's choice, log 7; that the
first part is a free one is U12, log 9.) -/
def Obligations.ResetClearsTheInstance : Prop :=
  (∀ (s : State) (k : Nat) (rest : List HostEvent) (e : Instance),
    s.inputs = .reset k :: rest → s.inst k = some e →
    ∃ u, step s = .next u ∧
      u.inst k = some ⟨⟨0x0000, 0, 0, 0, false⟩, ⟨0, 0, []⟩, none, []⟩ ∧
      (∀ j, j ≠ k → u.inst j = s.inst j) ∧ u.mem = s.mem ∧ u.pending = s.pending ∧
      u.draws = s.draws ∧ u.inputs = rest) ∧
  (∀ (s v : State) (k : Nat) (t : Transaction) (rest : List HostEvent) (e : Instance),
    s.inputs = .resetDuring k t :: rest →
    step { s with inputs := .command k t :: rest } = .next v → v.inst k = some e →
    ∃ u n, step s = .next u ∧
      u.inst k = some ⟨⟨0x0000, 0, 0, 0, false⟩, ⟨0, 0, []⟩, none, e.reads.take n⟩ ∧
      (∀ j, j ≠ k → u.inst j = s.inst j) ∧ u.mem = s.mem ∧ u.pending = s.pending ∧
      u.inputs = rest)

/-- R151: after reset IS_EMPTY answers 1, `rdbits 0` and every peek answer (OK, 0) and read nothing,
and every other read underflows. -/
def Obligations.AfterResetTheBufferIsEmpty : Prop :=
  ∀ s : State, s.cur.regs = ⟨0x0000, 0, 0, 0, false⟩ →
    exec .isempty s = .next (s.answers s.cur.regs .ok 1 [] s.draws) ∧
    exec (.rdbits 0) s = .next (s.answers s.cur.regs .ok 0 [] s.draws) ∧
    (∀ c : Count, c.toNat ≤ 16 →
      exec (.pkbits c) s = .next (s.answers s.cur.regs .ok 0 [] s.draws)) ∧
    (∀ (i : Instr) (n : Nat), i.wellFormed = true → i.readWidth = some n → 0 < n →
      exec i s = .next (s.answers s.cur.regs .underflow 0 [] s.draws))

/-- R50, R154 (by the model's record, logs 4, 5 and 12): the host's write is not visible yet and changes no register; for every live session
whose range covers it, the byte is one on which the duty is broken. -/
def Obligations.HostWriteBreaksTheDutyOfLiveSessions : Prop :=
  ∀ (s : State) (a : Nat) (b : Byte) (rest : List HostEvent), s.inputs = .write a b :: rest →
    ∃ u, step s = .next u ∧ u.mem = s.mem ∧
      u.pending = s.pending ++ [(a % 2 ^ s.addrW.bits, b)] ∧ u.inputs = rest ∧
      ∀ (k : Nat) (e : Instance), s.inst k = some e → ∃ e', u.inst k = some e' ∧
        e'.regs = e.regs ∧ e'.response = e.response ∧ e'.session.base = e.session.base ∧
        e'.session.len = e.session.len ∧
        (e.session.base < 2 ^ s.addrW.bits → e.session.len < 2 ^ s.addrW.bits →
          ∀ x, x ∈ e'.session.disturbed ↔ x ∈ e.session.disturbed ∨
            x = a % 2 ^ s.addrW.bits ∧
              ∃ j, j < e.session.len ∧ x = (e.session.base + j) % 2 ^ s.addrW.bits)

/-- U6, R50, R42, R91: a load of two bytes on which the host broke its duty gives two draws, whatever
the memory holds. That such bytes are draws of a counter is the model's record (log 4); that the
first draw is the byte at PTR, the low one, rests on the order of the two reads, which is the model's
choice (log 8; the spec's U11 leaves it open). -/
def Obligations.DisturbedBytesAreDraws : Prop :=
  ∀ s : State, s.cur.regs.faulted = false → s.cur.regs.rem = 0 → 2 ≤ s.cur.regs.len →
    s.cur.regs.ptr % 2 ^ s.addrW.bits ∈ s.cur.session.disturbed →
    (s.cur.regs.ptr + 1) % 2 ^ s.addrW.bits ∈ s.cur.session.disturbed →
    exec (.rdbits 16) s = .next (s.answers
      { word    := Config.drawnByte (s.draws + 1) ++ Config.drawnByte s.draws
        rem     := 0
        ptr     := (s.cur.regs.ptr + 2) % 2 ^ s.addrW.bits
        len     := s.cur.regs.len - 2
        faulted := false } .ok
      (Config.drawnByte (s.draws + 1) ++ Config.drawnByte s.draws).toNat
      [s.cur.regs.ptr % 2 ^ s.addrW.bits, (s.cur.regs.ptr + 1) % 2 ^ s.addrW.bits]
      (s.draws + 2))

/-- R153 step 3 (by the model's events, log 5): publishing makes every write visible, the last one to an address in force, and
changes no other byte and no instance. -/
def Obligations.PublishMakesWritesVisible : Prop :=
  ∀ (s : State) (rest : List HostEvent), s.inputs = .publish :: rest →
    ∃ u, step s = .next u ∧ u.pending = [] ∧ u.cur = s.cur ∧ u.others = s.others ∧
      u.draws = s.draws ∧ u.inputs = rest ∧
      (∀ a, (∀ b, (a, b) ∉ s.pending) → byteAt u.mem a = byteAt s.mem a) ∧
      (∀ pre a b post, s.pending = pre ++ (a, b) :: post → (∀ c, (a, c) ∉ post) →
        byteAt u.mem a = b)

/-- R18, R144, R34 (by the model's events, log 5): an event touches the registers of the instance it addresses only, and only a
command or a reset touches any; with no event the system is idle and keeps all state. -/
def Obligations.OnlyTheAddressedInstanceChanges : Prop :=
  ∀ (s u : State), step s = .next u →
    u.inputs = s.inputs.tail ∧ (s.inputs = [] → u = s) ∧
    (∀ k e, s.inst k = some e → ∃ e', u.inst k = some e' ∧
      (e'.regs ≠ e.regs ∨ e'.response ≠ e.response ∨ e'.reads ≠ e.reads →
        (∃ t rest, s.inputs = .command k t :: rest) ∨ (∃ rest, s.inputs = .reset k :: rest) ∨
        (∃ t rest, s.inputs = .resetDuring k t :: rest))) ∧
    (∀ k j t rest, s.inputs = .command k t :: rest → j ≠ k → u.inst j = s.inst j)

/-- R34, R59, R145: commands to two different instances commute where no byte is disturbed; neither
sees the other, though they read one memory. -/
def Obligations.InstancesDoNotInterfere : Prop :=
  ∀ (s u : State) (k j : Nat) (t t' : Transaction) (rest : List HostEvent), k ≠ j →
    s.DutyKept → s.inputs = .command k t :: .command j t' :: rest →
    Sys2Proof.core.run 2 s = .next u →
    Sys2Proof.core.run 2 { s with inputs := .command j t' :: .command k t :: rest } = .next u

/-- Log 10: the machine stops only on an event for an instance that does not exist; no command, reset,
write or publication stops it. -/
def Obligations.MachineStopsOnlyForAnAbsentInstance : Prop :=
  ∀ s : State, (∃ u, step s = .next u) ∨
    step s = .fault .noSuchInstance ∧ ∃ k, s.inst k = none ∧
      ((∃ t rest, s.inputs = .command k t :: rest) ∨ (∃ rest, s.inputs = .reset k :: rest) ∨
        (∃ t rest, s.inputs = .resetDuring k t :: rest))

/-! ### Invariants and the stream -/

/-- R10, R21, R23, R32, R50: the invariant of the system is kept by every step. -/
def Obligations.EveryStepKeepsTheInvariant : Prop :=
  ∀ s t : State, s.Inv → step s = .next t → t.Inv

/-- R33: the invariant holds after reset, for any address width and any number of instances. -/
def Obligations.InvariantHoldsAfterReset : Prop :=
  (∀ w n, (State.resetSystem w n).Inv) ∧ State.reset.Inv

/-- R31, R32: in a session whose bytes the host left alone, the unconsumed bits of WORD are the stream
bits `S[C], …, S[16n-1]`, every reading command that has the bits answers the stream bits
`S[C], S[C+1], …` in its arrangement, and C advances by the number of bits it takes. -/
def Obligations.ReadsReturnTheStreamInOrder : Prop :=
  ∀ (i : Instr) (n : Nat) (s : State), i.wellFormed = true → i.readWidth = some n →
    s.cur.CursorInv s.addrW → s.cur.MemoryInv s.addrW s.mem s.pending → s.cur.session.disturbed = [] →
    s.cur.regs.faulted = false → n ≤ s.cur.regs.available →
    s.cur.regs.word.toNat % 2 ^ s.cur.regs.rem.toNat
      = streamBits s.addrW s.mem s.cur.session s.cur.consumed s.cur.regs.rem.toNat ∧
    ∃ t, exec i s = .next t ∧
      t.cur.response = some ⟨.ok, BitVec.ofNat 32
        (i.arrange (streamBits s.addrW s.mem s.cur.session s.cur.consumed n))⟩ ∧
      t.cur.consumed = s.cur.consumed + n ∧ t.cur.session = s.cur.session ∧ t.mem = s.mem

/-- R99: values packed MSB-first, padded, cut into words and stored as little-endian byte pairs are
read back in order, all OK, by INIT over those bytes and one READ_BITS of each width. -/
def Obligations.PackedValuesReadBack : Prop :=
  ∀ (s : State) (base : Nat) (fs : List (Count × Nat)), s.cur.regs.faulted = false →
    s.pending = [] → (∀ f ∈ fs, f.1.toNat ≤ 16 ∧ f.2 < 2 ^ f.1.toNat) →
    base < 2 ^ s.addrW.bits → 2 * packedWords fs < 2 ^ s.addrW.bits →
    (∀ k, k < packedWords fs →
      (byteAt s.mem ((base + 2 * k) % 2 ^ s.addrW.bits)).toNat = packedWord fs k % 256 ∧
      (byteAt s.mem ((base + 2 * k + 1) % 2 ^ s.addrW.bits)).toNat = packedWord fs k / 256) →
    ∃ u, runCommands (.init base (2 * packedWords fs) :: fs.map fun f => .rdbits f.1) s
      = some (some ⟨.ok, 0⟩ :: fs.map fun f => some ⟨.ok, BitVec.ofNat 32 f.2⟩, u)

/-! ### The address width -/

/-- R8: ADDR_W is a parameter, at least 2 and 32 by default. A system may have any such width, no step
changes it, and it is the width of an address: in a sound system the PTR and LEN of every instance
and every address put on the memory port by a command are below `2^ADDR_W`. -/
def Obligations.AddressWidthIsAParameter : Prop :=
  (∀ b : Nat, 2 ≤ b → ∃ w : Config.AddrWidth, w.bits = b ∧
    ∀ n, (State.resetSystem w n).addrW = w ∧ (State.resetSystem w n).Inv) ∧
  (∀ s : State, 2 ≤ s.addrW.bits) ∧ State.reset.addrW.bits = 32 ∧
  (∀ s t : State, step s = .next t → t.addrW = s.addrW) ∧
  (∀ s : State, s.Inv → ∀ e ∈ s.instances,
    e.regs.ptr < 2 ^ s.addrW.bits ∧ e.regs.len < 2 ^ s.addrW.bits) ∧
  (∀ (i : Instr) (s t : State), exec i s = .next t → ∀ a ∈ t.cur.reads, a < 2 ^ s.addrW.bits)

/-- The model's choice, log 12, and no rule of the spec: BASE, BLEN and the address of a host write are
written down as naturals, and of one wider than ADDR_W bits the port carries the low ADDR_W bits.
INIT with such operands, and a host write to such an address, are those with the reduced ones, and
a step that serves an INIT leaves PTR and LEN at the reduced operands. -/
def Obligations.WideOperandsAreReducedToTheWidth : Prop :=
  (∀ (s : State) (base blen : Nat), exec (.init base blen) s
    = exec (.init (base % 2 ^ s.addrW.bits) (blen % 2 ^ s.addrW.bits)) s) ∧
  (∀ (s : State) (a : Nat) (b : Byte),
    hostWrite a b s = hostWrite (a % 2 ^ s.addrW.bits) b s) ∧
  (∀ (s : State) (k : Nat) (t : Transaction) (rest : List HostEvent) (base blen : Nat)
    (e : Instance), s.inputs = .command k t :: rest → decode t = .ok (.init base blen) →
    s.inst k = some e → e.regs.faulted = false →
    ∃ u e', step s = .next u ∧ u.inst k = some e' ∧
      e'.regs.ptr = base % 2 ^ s.addrW.bits ∧ e'.regs.len = blen % 2 ^ s.addrW.bits)
end

