-- ==== Sys2Proof/Laws/Decode.lean ====
section
/-! SUPPORT. The fields of a command word, read and written. -/

namespace Sys2Proof

theorem opc_toNat (t : Transaction) : t.opc.toNat = t.cmd.toNat % 16 := by
  simp [Transaction.opc]

theorem cnt_toNat (t : Transaction) : t.cnt.toNat = t.cmd.toNat / 16 % 32 := by
  simp [Transaction.cnt, Nat.shiftRight_eq_div_pow]

theorem rsv_toNat (t : Transaction) : t.rsv.toNat = t.cmd.toNat / 512 := by
  have := t.cmd.isLt
  simp [Transaction.rsv, Nat.shiftRight_eq_div_pow]
  omega

theorem commandWord_toNat (cnt : Count) (opc : BitVec 4) :
    (commandWord cnt opc).toNat = cnt.toNat * 16 + opc.toNat := by
  have h1 := cnt.isLt
  have h2 := opc.isLt
  simp only [commandWord, BitVec.toNat_append, BitVec.toNat_ofNat]
  rw [← Nat.shiftLeft_add_eq_or_of_lt h2, ← Nat.shiftLeft_add_eq_or_of_lt h1]
  simp [Nat.shiftLeft_eq]

@[simp] theorem opc_commandWord (cnt : Count) (opc : BitVec 4) (base blen : Nat) :
    (Transaction.mk (commandWord cnt opc) base blen).opc = opc := by
  have := opc.isLt
  apply BitVec.eq_of_toNat_eq
  rw [opc_toNat, commandWord_toNat]
  omega

@[simp] theorem cnt_commandWord (cnt : Count) (opc : BitVec 4) (base blen : Nat) :
    (Transaction.mk (commandWord cnt opc) base blen).cnt = cnt := by
  have := opc.isLt
  have := cnt.isLt
  apply BitVec.eq_of_toNat_eq
  rw [cnt_toNat, commandWord_toNat]
  omega

@[simp] theorem rsv_commandWord (cnt : Count) (opc : BitVec 4) (base blen : Nat) :
    (Transaction.mk (commandWord cnt opc) base blen).rsv = 0 := by
  have := opc.isLt
  have := cnt.isLt
  apply BitVec.eq_of_toNat_eq
  rw [rsv_toNat, commandWord_toNat]
  show _ = 0
  omega

/-- A command word is its three fields. -/
theorem cmd_eq_commandWord (t : Transaction) (h : t.rsv = 0) : t.cmd = commandWord t.cnt t.opc := by
  have h' : 0 = t.cmd.toNat / 512 := by rw [← rsv_toNat, h]; rfl
  apply BitVec.eq_of_toNat_eq
  rw [commandWord_toNat, opc_toNat, cnt_toNat]
  omega

/-- Every command the opcode map selects (R63). -/
theorem selectCommand_cases {opc : BitVec 4} {cnt : Count} {base blen : Nat} {i : Instr}
    (h : selectCommand opc cnt base blen = some i) :
    (opc = 1 ∧ i = .init base blen) ∨ (opc = 2 ∧ i = .rdbit) ∨ (opc = 3 ∧ i = .rdbits cnt) ∨
    (opc = 4 ∧ i = .pkbits cnt) ∨ (opc = 5 ∧ i = .rdu16le) ∨ (opc = 6 ∧ i = .rdu32le) ∨
    (opc = 7 ∧ i = .rdu24be) ∨ (opc = 8 ∧ i = .isempty) := by
  have ho (n : Nat) (hn : opc.toNat = n) : opc = BitVec.ofNat 4 n := by
    rw [← hn, BitVec.ofNat_toNat, BitVec.setWidth_eq]
  unfold selectCommand at h
  split at h <;> simp only [Option.some.injEq, reduceCtorEq] at h <;> rename_i hn <;>
    simp [ho _ hn, h]

/-- All that decoding to an instruction says: the opcode selects it, and the other fields pass the
checks of R138. -/
theorem decode_ok_iff (t : Transaction) (i : Instr) :
    decode t = .ok i ↔ selectCommand t.opc t.cnt t.base t.blen = some i ∧ t.rsv = 0 ∧
      (usesCount t.opc = false → t.cnt = 0) ∧ (usesCount t.opc = true → t.cnt.toNat ≤ 16) := by
  rw [decode]
  cases selectCommand t.opc t.cnt t.base t.blen with
  | none => simp
  | some j =>
    by_cases hr : t.rsv = 0#23
    · cases hu : usesCount t.opc
      · by_cases hc : t.cnt = 0#5 <;> simp [hr, hc]
      · by_cases hc : t.cnt.toNat ≤ 16 <;> simp [hr, hc, Count.legal]
    · simp [hr]

end Sys2Proof
end

