-- ==== Sys2Proof/Laws/Width.lean ====
section
/-! SUPPORT. Address arithmetic modulo `2^ADDR_W`, for every width (R8, R52). -/

namespace Sys2Proof.Config.AddrWidth

variable (w : AddrWidth)

theorem size_eq : w.size = 2 ^ w.bits := rfl

theorem wrap_eq (a : Nat) : w.wrap a = a % 2 ^ w.bits := rfl

/-- There are at least four addresses (R8). -/
theorem four_le_size : 4 ≤ w.size :=
  Nat.pow_le_pow_right (n := 2) (by decide) w.two_le

theorem size_pos : 0 < w.size := Nat.lt_of_lt_of_le (by decide) w.four_le_size

theorem wrap_lt (a : Nat) : w.wrap a < w.size := Nat.mod_lt _ w.size_pos

theorem wrap_of_lt {a : Nat} (h : a < w.size) : w.wrap a = a := Nat.mod_eq_of_lt h

@[simp] theorem wrap_wrap (a : Nat) : w.wrap (w.wrap a) = w.wrap a := Nat.mod_mod _ _

@[simp] theorem wrap_zero : w.wrap 0 = 0 := Nat.zero_mod _

@[simp] theorem wrap_size : w.wrap w.size = 0 := Nat.mod_self _

/-- Reducing on the way changes nothing. -/
@[simp] theorem wrap_wrap_add (a k : Nat) : w.wrap (w.wrap a + k) = w.wrap (a + k) :=
  Nat.mod_add_mod _ _ _

/-- The byte `k` above `base` lies `k` above it. -/
theorem offset_wrap_add (base : Nat) {k : Nat} (h : k < w.size) :
    w.offset base (w.wrap (base + k)) = k := by
  have hb := w.wrap_lt base
  rw [offset, wrap_wrap_add, Nat.add_comm base k, Nat.add_assoc, ← wrap_wrap_add,
    Nat.add_comm, ← wrap_wrap_add, Nat.add_comm base]
  have hz : w.wrap (w.size - w.wrap base + base) = 0 := by
    rw [Nat.add_comm, ← wrap_wrap_add, Nat.add_sub_cancel' (Nat.le_of_lt hb), wrap_size]
  rw [hz, Nat.zero_add, wrap_wrap, wrap_of_lt w h]

/-- What lies `k` above `base` is the byte `k` above it. -/
theorem wrap_add_offset (base : Nat) {a : Nat} (h : a < w.size) :
    w.wrap (base + w.offset base a) = a := by
  have hb := w.wrap_lt base
  rw [offset, Nat.add_comm, wrap_wrap_add, Nat.add_assoc, Nat.add_comm a, ← wrap_wrap_add,
    Nat.add_comm (w.size - _) base, ← wrap_wrap_add _ base,
    Nat.add_sub_cancel' (Nat.le_of_lt hb), wrap_size, Nat.zero_add, wrap_of_lt w h]

end Sys2Proof.Config.AddrWidth
end

