-- ==== Sys2Proof/Laws/Memory.lean ====
section
/-! SUPPORT. The buffer memory: read after write, and the canonical form is kept. -/

namespace Sys2Proof.Machine

variable {w : Config.AddrWidth}

theorem lookup_of_risesFrom (m : Memory) (lo a : Nat) (h : Memory.risesFrom w lo m = true)
    (ha : a < lo) : m.lookup a = none := by
  induction m generalizing lo with
  | nil => rfl
  | cons c m ih =>
    obtain ⟨k, b⟩ := c
    simp only [Memory.risesFrom, Bool.and_eq_true, decide_eq_true_eq] at h
    rw [Memory.lookup, if_neg (by omega), ih (k + 1) h.2 (by omega)]

theorem lookup_place_same (m : Memory) (a : Nat) (b : Byte) : (m.place a b).lookup a = some b := by
  induction m with
  | nil => simp [Memory.place, Memory.lookup]
  | cons c m ih =>
    obtain ⟨k, c⟩ := c
    rw [Memory.place]
    split
    · simp [Memory.lookup]
    · split
      · simp [Memory.lookup]
      · rw [Memory.lookup, if_neg (by omega), ih]

theorem lookup_place_other (m : Memory) (a a' : Nat) (b : Byte) (h : a' ≠ a) :
    (m.place a b).lookup a' = m.lookup a' := by
  induction m with
  | nil => simp [Memory.place, Memory.lookup, h.symm]
  | cons c m ih =>
    obtain ⟨k, c⟩ := c
    rw [Memory.place]
    split
    · rw [Memory.lookup, if_neg h.symm]
    · split
      · subst_vars
        rw [Memory.lookup, Memory.lookup, if_neg h.symm, if_neg h.symm]
      · rw [Memory.lookup, Memory.lookup, ih]

theorem place_risesFrom (m : Memory) (lo a : Nat) (b : Byte) (h : Memory.risesFrom w lo m = true)
    (hlo : lo ≤ a) (ha : a < w.size) : Memory.risesFrom w lo (m.place a b) = true := by
  induction m generalizing lo with
  | nil => simp [Memory.place, Memory.risesFrom, hlo, ha]
  | cons c m ih =>
    obtain ⟨k, c⟩ := c
    simp only [Memory.risesFrom, Bool.and_eq_true, decide_eq_true_eq] at h
    rw [Memory.place]
    split
    · simp only [Memory.risesFrom, Bool.and_eq_true, decide_eq_true_eq]
      exact ⟨⟨hlo, ha⟩, ⟨by omega, h.1.2⟩, h.2⟩
    · split
      · subst_vars
        simp only [Memory.risesFrom, Bool.and_eq_true, decide_eq_true_eq]
        exact ⟨⟨hlo, ha⟩, h.2⟩
      · simp only [Memory.risesFrom, Bool.and_eq_true, decide_eq_true_eq]
        exact ⟨h.1, ih (k + 1) h.2 (by omega)⟩

/-- Placing a byte keeps the canonical form. -/
theorem place_wf (m : Memory) (a : Nat) (b : Byte) (h : Memory.wf w m = true) (ha : a < w.size) :
    Memory.wf w (m.place a b) = true :=
  place_risesFrom m 0 a b h (Nat.zero_le _) ha

theorem byteAt_place_same (m : Memory) (a : Nat) (b : Byte) :
    byteAt (m.place a b) a = b := by
  rw [byteAt, lookup_place_same]

theorem byteAt_place_other (m : Memory) (a a' : Nat) (b : Byte) (h : a' ≠ a) :
    byteAt (m.place a b) a' = byteAt m a' := by
  rw [byteAt, lookup_place_other _ _ _ _ h, byteAt]

/-- Publishing writes to addresses that exist keeps the canonical form. -/
theorem publish_wf (ps : List (Nat × Byte)) (m : Memory) (h : Memory.wf w m = true)
    (hp : ∀ p ∈ ps, p.1 < w.size) :
    Memory.wf w (ps.foldl (fun m p => m.place p.1 p.2) m) = true := by
  induction ps generalizing m with
  | nil => exact h
  | cons p ps ih =>
    exact ih _ (place_wf m p.1 p.2 h (hp p List.mem_cons_self))
      fun q hq => hp q (List.mem_cons_of_mem _ hq)

/-- Memory after reset lists nothing and is canonical. -/
theorem reset_mem_wf (n : Nat) : Memory.wf w (State.resetSystem w n).mem = true := rfl

/-- Publishing leaves every address the host did not write. -/
theorem publish_other (ps : List (Nat × Byte)) (m : Memory) (a : Nat)
    (h : ∀ p ∈ ps, p.1 ≠ a) :
    byteAt (ps.foldl (fun m p => m.place p.1 p.2) m) a = byteAt m a := by
  induction ps generalizing m with
  | nil => rfl
  | cons p ps ih =>
    rw [List.foldl_cons, ih _ fun x hx => h x (List.mem_cons_of_mem _ hx)]
    exact byteAt_place_other m p.1 a p.2 (h p List.mem_cons_self).symm

/-- Two canonical memories that read the same everywhere are the same list. -/
theorem eq_of_lookup_eq (m m' : Memory) (lo lo' : Nat) (h : Memory.risesFrom w lo m = true)
    (h' : Memory.risesFrom w lo' m' = true) (heq : ∀ a, m.lookup a = m'.lookup a) : m = m' := by
  induction m generalizing m' lo lo' with
  | nil =>
    cases m' with
    | nil => rfl
    | cons c m' => simpa [Memory.lookup] using heq c.1
  | cons c m ih =>
    cases m' with
    | nil => simpa [Memory.lookup] using heq c.1
    | cons d m' =>
      obtain ⟨k, b⟩ := c
      obtain ⟨k', b'⟩ := d
      simp only [Memory.risesFrom, Bool.and_eq_true, decide_eq_true_eq] at h h'
      have hk : k = k' := by
        rcases Nat.lt_trichotomy k k' with hlt | heq' | hlt
        · have := heq k
          rw [Memory.lookup, if_pos rfl, Memory.lookup, if_neg (by omega),
            lookup_of_risesFrom m' (k' + 1) k h'.2 (by omega)] at this
          cases this
        · exact heq'
        · have := heq k'
          rw [Memory.lookup, if_neg (by omega), lookup_of_risesFrom m (k + 1) k' h.2 (by omega),
            Memory.lookup, if_pos rfl] at this
          cases this
      subst hk
      have hb : b = b' := by simpa [Memory.lookup] using heq k
      subst hb
      congr 1
      refine ih m' (k + 1) (k + 1) h.2 h'.2 fun a => ?_
      by_cases ha : k = a
      · subst ha
        rw [lookup_of_risesFrom m (k + 1) k h.2 (by omega),
          lookup_of_risesFrom m' (k + 1) k h'.2 (by omega)]
      · simpa [Memory.lookup, ha] using heq a

end Sys2Proof.Machine
end

