-- ==== Sys2Proof/Laws/Operands.lean ====
section
/-! SUPPORT. The arithmetic primitives as division and remainder on exact naturals. -/

namespace Sys2Proof.Machine

theorem field_eq (v lo w : Nat) : field v lo w = v / 2 ^ lo % 2 ^ w := by
  simp [field, mask, Nat.and_two_pow_sub_one_eq_mod, Nat.shiftRight_eq_div_pow]

theorem field_lt (v lo w : Nat) : field v lo w < 2 ^ w := by
  rw [field_eq]; exact Nat.mod_lt _ (Nat.two_pow_pos w)

@[simp] theorem field_width_zero (v lo : Nat) : field v lo 0 = 0 := by
  have := field_lt v lo 0; omega

/-- Concatenation: a shift by the low part's width, or-ed with the low part, is a sum. -/
theorem shiftLeft_or (hi lo k : Nat) (h : lo < 2 ^ k) : (hi <<< k) ||| lo = hi * 2 ^ k + lo := by
  rw [← Nat.shiftLeft_add_eq_or_of_lt h, Nat.shiftLeft_eq]

/-- The two ways of reading `n` bits at the front of `hi ++ lo` agree (R90, R46): Extract is the top
`n` bits of the unconsumed bits followed by the next word. -/
theorem extract_eq (word : Word) (rem : Nat) (next : Word) (n : Nat) (hr : rem ≤ 16) (hn : n ≤ 16) :
    extract word rem next n
      = (field word.toNat 0 rem * 2 ^ 16 + next.toNat) / 2 ^ (rem + 16 - n) := by
  have hx := next.isLt
  by_cases h : n ≤ rem
  · have hpow : 2 ^ (rem + 16 - n) = 2 ^ 16 * 2 ^ (rem - n) := by
      rw [← Nat.pow_add]; congr 1; omega
    rw [extract, if_pos h, hpow, ← Nat.div_div_eq_div_mul, Nat.mul_comm,
      Nat.mul_add_div (by positivity), Nat.div_eq_of_lt hx, Nat.add_zero, field_eq, field_eq]
    simp only [Nat.pow_zero, Nat.div_one]
    have : 2 ^ rem = 2 ^ (rem - n) * 2 ^ n := by rw [← Nat.pow_add]; congr 1; omega
    rw [this, Nat.mod_mul_right_div_self]
  · have hk : n - rem ≤ 16 := by omega
    have hpow : 2 ^ (rem + 16 - n) * 2 ^ (n - rem) = 2 ^ 16 := by
      rw [← Nat.pow_add]; congr 1; omega
    have hlo : field next.toNat (16 - (n - rem)) (n - rem) = next.toNat / 2 ^ (rem + 16 - n) := by
      rw [field_eq, show 16 - (n - rem) = rem + 16 - n by omega]
      exact Nat.mod_eq_of_lt (Nat.div_lt_of_lt_mul (by rw [hpow]; exact hx))
    rw [extract, if_neg h]
    simp only
    rw [shiftLeft_or _ _ _ (field_lt _ _ _), hlo]
    rw [← hpow, show field word.toNat 0 rem * (2 ^ (rem + 16 - n) * 2 ^ (n - rem)) + next.toNat
      = 2 ^ (rem + 16 - n) * (field word.toNat 0 rem * 2 ^ (n - rem)) + next.toNat by ring,
      Nat.mul_add_div (by positivity)]

/-- Extract's value has `n` bits (R90). -/
theorem extract_lt (word : Word) (rem : Nat) (next : Word) (n : Nat) (hr : rem ≤ 16) (hn : n ≤ 16) :
    extract word rem next n < 2 ^ n := by
  rw [extract_eq word rem next n hr hn]
  apply Nat.div_lt_of_lt_mul
  rw [← Nat.pow_add, show rem + 16 - n + n = rem + 16 by omega, Nat.pow_add]
  have := field_lt word.toNat 0 rem
  have := next.isLt
  nlinarith

theorem joinBytes_toNat (b1 b0 : Byte) : (joinBytes b1 b0).toNat = b1.toNat * 2 ^ 8 + b0.toNat := by
  rw [joinBytes, BitVec.toNat_append, shiftLeft_or _ _ _ b0.isLt]

theorem swap16_eq (v : Nat) : swap16 v = v % 2 ^ 8 * 2 ^ 8 + v / 2 ^ 8 % 2 ^ 8 := by
  rw [swap16, shiftLeft_or _ _ _ (field_lt _ _ _), field_eq, field_eq]
  simp

theorem swap16_lt (v : Nat) : swap16 v < 2 ^ 16 := by
  rw [swap16_eq]; omega

theorem joinU32le_eq (v1 v2 : Nat) : joinU32le v1 v2 = swap16 v2 * 2 ^ 16 + swap16 v1 :=
  shiftLeft_or _ _ _ (swap16_lt v1)

theorem joinU24be_eq (hi lo : Nat) (h : lo < 2 ^ 8) : joinU24be hi lo = hi * 2 ^ 8 + lo :=
  shiftLeft_or _ _ _ h

end Sys2Proof.Machine
end

