-- ==== Sys2Proof/Laws/State.lean ====
section
/-! SUPPORT. One lemma per field of State per update, so that no proof unfolds a record update. -/

namespace Sys2Proof.Machine

section setRegs
variable (r : Regs) (s : State)
@[simp] theorem setRegs_regs : (setRegs r s).cur.regs = r := rfl
@[simp] theorem setRegs_session : (setRegs r s).cur.session = s.cur.session := rfl
@[simp] theorem setRegs_response : (setRegs r s).cur.response = s.cur.response := rfl
@[simp] theorem setRegs_reads : (setRegs r s).cur.reads = s.cur.reads := rfl
@[simp] theorem setRegs_addrW : (setRegs r s).addrW = s.addrW := rfl
@[simp] theorem setRegs_others : (setRegs r s).others = s.others := rfl
@[simp] theorem setRegs_mem : (setRegs r s).mem = s.mem := rfl
@[simp] theorem setRegs_pending : (setRegs r s).pending = s.pending := rfl
@[simp] theorem setRegs_draws : (setRegs r s).draws = s.draws := rfl
@[simp] theorem setRegs_inputs : (setRegs r s).inputs = s.inputs := rfl
@[simp] theorem setRegs_setRegs (r' : Regs) : setRegs r (setRegs r' s) = setRegs r s := rfl
end setRegs

section beginCommand
variable (s : State)
@[simp] theorem beginCommand_regs : (beginCommand s).cur.regs = s.cur.regs := rfl
@[simp] theorem beginCommand_session : (beginCommand s).cur.session = s.cur.session := rfl
@[simp] theorem beginCommand_response : (beginCommand s).cur.response = none := rfl
@[simp] theorem beginCommand_reads : (beginCommand s).cur.reads = [] := rfl
@[simp] theorem beginCommand_addrW : (beginCommand s).addrW = s.addrW := rfl
@[simp] theorem beginCommand_others : (beginCommand s).others = s.others := rfl
@[simp] theorem beginCommand_mem : (beginCommand s).mem = s.mem := rfl
@[simp] theorem beginCommand_pending : (beginCommand s).pending = s.pending := rfl
@[simp] theorem beginCommand_draws : (beginCommand s).draws = s.draws := rfl
@[simp] theorem beginCommand_inputs : (beginCommand s).inputs = s.inputs := rfl
end beginCommand

section respond
variable (st : Status) (v : Nat) (s : State)
@[simp] theorem respond_regs : (respond st v s).cur.regs = s.cur.regs := rfl
@[simp] theorem respond_session : (respond st v s).cur.session = s.cur.session := rfl
@[simp] theorem respond_response :
    (respond st v s).cur.response = some ⟨st, BitVec.ofNat 32 v⟩ := rfl
@[simp] theorem respond_reads : (respond st v s).cur.reads = s.cur.reads := rfl
@[simp] theorem respond_addrW : (respond st v s).addrW = s.addrW := rfl
@[simp] theorem respond_others : (respond st v s).others = s.others := rfl
@[simp] theorem respond_mem : (respond st v s).mem = s.mem := rfl
@[simp] theorem respond_pending : (respond st v s).pending = s.pending := rfl
@[simp] theorem respond_draws : (respond st v s).draws = s.draws := rfl
@[simp] theorem respond_inputs : (respond st v s).inputs = s.inputs := rfl
end respond

section setRem
variable (n : Nat) (s : State)
@[simp] theorem setRem_word : (setRem n s).cur.regs.word = s.cur.regs.word := rfl
@[simp] theorem setRem_rem : (setRem n s).cur.regs.rem = BitVec.ofNat 5 n := rfl
@[simp] theorem setRem_ptr : (setRem n s).cur.regs.ptr = s.cur.regs.ptr := rfl
@[simp] theorem setRem_len : (setRem n s).cur.regs.len = s.cur.regs.len := rfl
@[simp] theorem setRem_faulted : (setRem n s).cur.regs.faulted = s.cur.regs.faulted := rfl
@[simp] theorem setRem_session : (setRem n s).cur.session = s.cur.session := rfl
@[simp] theorem setRem_response : (setRem n s).cur.response = s.cur.response := rfl
@[simp] theorem setRem_reads : (setRem n s).cur.reads = s.cur.reads := rfl
@[simp] theorem setRem_addrW : (setRem n s).addrW = s.addrW := rfl
@[simp] theorem setRem_others : (setRem n s).others = s.others := rfl
@[simp] theorem setRem_mem : (setRem n s).mem = s.mem := rfl
@[simp] theorem setRem_pending : (setRem n s).pending = s.pending := rfl
@[simp] theorem setRem_draws : (setRem n s).draws = s.draws := rfl
@[simp] theorem setRem_inputs : (setRem n s).inputs = s.inputs := rfl
end setRem

section popInput
variable (s : State)
@[simp] theorem popInput_addrW : s.popInput.addrW = s.addrW := rfl
@[simp] theorem popInput_cur : s.popInput.cur = s.cur := rfl
@[simp] theorem popInput_others : s.popInput.others = s.others := rfl
@[simp] theorem popInput_mem : s.popInput.mem = s.mem := rfl
@[simp] theorem popInput_pending : s.popInput.pending = s.pending := rfl
@[simp] theorem popInput_draws : s.popInput.draws = s.draws := rfl
@[simp] theorem popInput_inputs : s.popInput.inputs = s.inputs.tail := rfl
end popInput

@[simp] theorem setFaulted_word (r : Regs) : r.setFaulted.word = r.word := rfl
@[simp] theorem setFaulted_rem (r : Regs) : r.setFaulted.rem = r.rem := rfl
@[simp] theorem setFaulted_ptr (r : Regs) : r.setFaulted.ptr = r.ptr := rfl
@[simp] theorem setFaulted_len (r : Regs) : r.setFaulted.len = r.len := rfl
@[simp] theorem setFaulted_faulted (r : Regs) : r.setFaulted.faulted = true := rfl

end Sys2Proof.Machine
end

