-- ==== Sys2Proof/Laws/Ops.lean ====
section
/-! SUPPORT. One specification of each shared operation: what it can answer and what it leaves
unchanged. -/

namespace Sys2Proof.Machine

/-! ### Sessions -/

/-- A session covers an address exactly when it is one of the range's bytes (R31, R52). -/
theorem covers_iff {w : Config.AddrWidth} {ses : Session} {a : Nat} (ha : a < w.size)
    (hl : ses.len ≤ w.size) :
    ses.covers w a = true ↔ ∃ k, k < ses.len ∧ a = w.wrap (ses.base + k) := by
  rw [Session.covers, decide_eq_true_eq]
  constructor
  · exact fun h => ⟨_, h, (w.wrap_add_offset ses.base ha).symm⟩
  · rintro ⟨k, hk, rfl⟩
    rwa [w.offset_wrap_add _ (Nat.lt_of_lt_of_le hk hl)]

section disturb
variable (w : Config.AddrWidth) (ses : Session) (a : Nat)

@[simp] theorem disturb_base : (ses.disturb w a).base = ses.base := by
  unfold Session.disturb; split <;> rfl

@[simp] theorem disturb_len : (ses.disturb w a).len = ses.len := by
  unfold Session.disturb; split <;> rfl

@[simp] theorem disturb_covers (x : Nat) : (ses.disturb w a).covers w x = ses.covers w x := by
  simp [Session.covers]

/-- What disturbing an address notes: that address, if the session covers it. -/
theorem mem_disturb (x : Nat) : x ∈ (ses.disturb w a).disturbed ↔
    x ∈ ses.disturbed ∨ x = a ∧ ses.covers w a = true := by
  unfold Session.disturb
  by_cases hc : ses.covers w a = true <;> by_cases hm : a ∈ ses.disturbed <;> simp [hc, hm]
  rintro rfl
  exact hm

/-- What disturbing a list of written addresses notes: those of them the session covers. -/
theorem mem_disturb_list (ps : List (Nat × Byte)) (x : Nat) :
    x ∈ (ps.foldl (fun ses p => ses.disturb w p.1) ses).disturbed ↔
      x ∈ ses.disturbed ∨ ses.covers w x = true ∧ ∃ b, (x, b) ∈ ps := by
  induction ps generalizing ses with
  | nil => simp
  | cons p ps ih =>
    rw [List.foldl_cons, ih, mem_disturb, disturb_covers]
    constructor
    · rintro ((h | ⟨rfl, h⟩) | ⟨h, b, hb⟩)
      · exact .inl h
      · exact .inr ⟨h, p.2, List.mem_cons_self⟩
      · exact .inr ⟨h, b, List.mem_cons_of_mem _ hb⟩
    · rintro (h | ⟨h, b, hb⟩)
      · exact .inl (.inl h)
      · rcases List.mem_cons.1 hb with rfl | hb
        · exact .inl (.inr ⟨rfl, h⟩)
        · exact .inr ⟨h, b, hb⟩
end disturb

/-! ### The memory port -/

theorem memRead_clean (a : Nat) (s : State) (h : s.addrW.wrap a ∉ s.cur.session.disturbed) :
    memRead a s = (byteAt s.mem (s.addrW.wrap a),
      { s with cur := { s.cur with reads := s.cur.reads ++ [s.addrW.wrap a] } }) := by
  simp [memRead, h]

theorem memRead_disturbed (a : Nat) (s : State) (h : s.addrW.wrap a ∈ s.cur.session.disturbed) :
    memRead a s = (Config.drawnByte s.draws,
      { s with
        cur := { s.cur with reads := s.cur.reads ++ [s.addrW.wrap a] }
        draws := s.draws + 1 }) := by
  simp [memRead, h]

/-- A read changes nothing but the record of reads and the count of draws. -/
theorem memRead_frame (a : Nat) (s : State) : ∃ d, (memRead a s).2 =
    { s with cur := { s.cur with reads := s.cur.reads ++ [s.addrW.wrap a] }, draws := d } := by
  by_cases h : s.addrW.wrap a ∈ s.cur.session.disturbed
  · exact ⟨_, by rw [memRead_disturbed a s h]⟩
  · exact ⟨_, by rw [memRead_clean a s h]⟩

theorem readWord_clean (a : Nat) (s : State) (h0 : s.addrW.wrap a ∉ s.cur.session.disturbed)
    (h1 : s.addrW.wrap (a + 1) ∉ s.cur.session.disturbed) :
    readWord a s
      = (joinBytes (byteAt s.mem (s.addrW.wrap (a + 1))) (byteAt s.mem (s.addrW.wrap a)),
      { s with cur := { s.cur with
          reads := s.cur.reads ++ [s.addrW.wrap a, s.addrW.wrap (a + 1)] } }) := by
  simp only [readWord, memRead_clean a s h0]
  rw [memRead_clean (a + 1) _ (by exact h1)]
  simp

theorem readWord_frame (a : Nat) (s : State) : ∃ d, (readWord a s).2 =
    { s with
      cur := { s.cur with reads := s.cur.reads ++ [s.addrW.wrap a, s.addrW.wrap (a + 1)] }
      draws := d } := by
  obtain ⟨d, h⟩ := memRead_frame a s
  obtain ⟨d', h'⟩ := memRead_frame (a + 1) (memRead a s).2
  refine ⟨d', ?_⟩
  rw [readWord]
  simp only
  rw [h', h]
  simp

/-- LoadWord (R42): two bytes leave the front of the buffer, WORD is what the port gave. -/
theorem loadWord_frame (s : State) : ∃ d, loadWord s = { s with
    cur := { s.cur with
      regs := { s.cur.regs with
        word := (readWord s.cur.regs.ptr s).1
        ptr  := s.addrW.wrap (s.cur.regs.ptr + 2)
        len  := s.cur.regs.len - 2
        rem  := 16 }
      reads := s.cur.reads
        ++ [s.addrW.wrap s.cur.regs.ptr, s.addrW.wrap (s.cur.regs.ptr + 1)] }
    draws := d } := by
  obtain ⟨d, h⟩ := readWord_frame s.cur.regs.ptr s
  refine ⟨d, ?_⟩
  rw [loadWord]
  simp only
  rw [h]
  rfl

theorem loadWord_clean (s : State) (h0 : s.addrW.wrap s.cur.regs.ptr ∉ s.cur.session.disturbed)
    (h1 : s.addrW.wrap (s.cur.regs.ptr + 1) ∉ s.cur.session.disturbed) : loadWord s = { s with
    cur := { s.cur with
      regs := { s.cur.regs with
        word := joinBytes (byteAt s.mem (s.addrW.wrap (s.cur.regs.ptr + 1)))
          (byteAt s.mem (s.addrW.wrap s.cur.regs.ptr))
        ptr  := s.addrW.wrap (s.cur.regs.ptr + 2)
        len  := s.cur.regs.len - 2
        rem  := 16 }
      reads := s.cur.reads
        ++ [s.addrW.wrap s.cur.regs.ptr, s.addrW.wrap (s.cur.regs.ptr + 1)] } } := by
  rw [loadWord, readWord_clean _ _ h0 h1]
  rfl

/-! ### ReadBits -/

/-- ReadBits on the path REM can serve (R91, R98): nothing is loaded. -/
theorem readBits_within (n : Nat) (s : State) (h : n ≤ s.cur.regs.rem.toNat) :
    readBits n s = some (extract s.cur.regs.word s.cur.regs.rem.toNat 0 n,
      setRem (s.cur.regs.rem.toNat - n) s) := by
  simp [readBits, h]

/-- ReadBits that underflows (R131). -/
theorem readBits_underflow (n : Nat) (s : State) (h : s.cur.regs.rem.toNat < n)
    (hl : s.cur.regs.len < 2) : readBits n s = none := by
  simp [readBits, Regs.noWords, hl, Nat.not_le.mpr h]

/-- ReadBits that loads a word (R91). -/
theorem readBits_crossing (n : Nat) (s : State) (h : s.cur.regs.rem.toNat < n)
    (hl : 2 ≤ s.cur.regs.len) :
    readBits n s = some
      (extract s.cur.regs.word s.cur.regs.rem.toNat (loadWord s).cur.regs.word n,
        setRem (16 - (n - s.cur.regs.rem.toNat)) (loadWord s)) := by
  simp [readBits, Regs.noWords, Nat.not_le.mpr h, Nat.not_lt.mpr hl]

/-- Underflow happens exactly when a load is needed and fewer than two bytes are left (R131). -/
theorem readBits_eq_none_iff (n : Nat) (s : State) :
    readBits n s = none ↔ s.cur.regs.rem.toNat < n ∧ s.cur.regs.len < 2 := by
  constructor
  · intro h
    by_cases h1 : n ≤ s.cur.regs.rem.toNat
    · rw [readBits_within n s h1] at h; cases h
    · by_cases h2 : s.cur.regs.len < 2
      · exact ⟨by omega, h2⟩
      · rw [readBits_crossing n s (by omega) (by omega)] at h; cases h
  · exact fun h => readBits_underflow n s h.1 h.2

/-- All that a ReadBits step which succeeds can do. -/
theorem readBits_cases {n v : Nat} {s t : State} (h : readBits n s = some (v, t)) :
    (n ≤ s.cur.regs.rem.toNat ∧ v = extract s.cur.regs.word s.cur.regs.rem.toNat 0 n ∧
      t = setRem (s.cur.regs.rem.toNat - n) s) ∨
    (s.cur.regs.rem.toNat < n ∧ 2 ≤ s.cur.regs.len ∧
      v = extract s.cur.regs.word s.cur.regs.rem.toNat (loadWord s).cur.regs.word n ∧
      t = setRem (16 - (n - s.cur.regs.rem.toNat)) (loadWord s)) := by
  by_cases h1 : n ≤ s.cur.regs.rem.toNat
  · rw [readBits_within n s h1] at h
    simp only [Option.some.injEq, Prod.mk.injEq] at h
    exact .inl ⟨h1, h.1.symm, h.2.symm⟩
  · by_cases h2 : s.cur.regs.len < 2
    · rw [readBits_underflow n s (by omega) h2] at h; cases h
    · rw [readBits_crossing n s (by omega) (by omega)] at h
      simp only [Option.some.injEq, Prod.mk.injEq] at h
      exact .inr ⟨by omega, by omega, h.1.symm, h.2.symm⟩

/-- What no ReadBits step touches. -/
theorem readBits_frame {n v : Nat} {s t : State} (h : readBits n s = some (v, t)) :
    t.addrW = s.addrW ∧ t.cur.session = s.cur.session ∧ t.cur.response = s.cur.response ∧
      t.others = s.others ∧ t.mem = s.mem ∧ t.pending = s.pending ∧ t.inputs = s.inputs ∧
      t.cur.regs.faulted = s.cur.regs.faulted := by
  obtain ⟨-, -, rfl⟩ | ⟨-, -, -, rfl⟩ := readBits_cases h
  · simp
  · obtain ⟨d, hd⟩ := loadWord_frame s
    simp [hd]

/-! ### PEEK_BITS -/

/-- A peek changes nothing but the record of reads and the count of draws (R94). -/
theorem peekBits_frame (n : Nat) (s : State) : ∃ rs d, (peekBits n s).2 =
    { s with cur := { s.cur with reads := rs }, draws := d } := by
  rw [peekBits]
  split
  · exact ⟨_, _, rfl⟩
  · simp only [peekWord]
    split
    · exact ⟨_, _, rfl⟩
    · obtain ⟨d, h⟩ := memRead_frame s.cur.regs.ptr s
      exact ⟨_, d, h⟩
    · obtain ⟨d, h⟩ := readWord_frame s.cur.regs.ptr s
      exact ⟨_, d, h⟩

/-! ### Serving -/

/-- A command a FAULTED engine turns away (R136). -/
theorem serveCommand_faulted (rule : State → State) (s : State)
    (h : s.cur.regs.faulted = true) :
    serveCommand rule s = .next (answerFaulted (beginCommand s)) := by
  simp [serveCommand, h]

/-- A command that passes the first common check runs its rule (R138). -/
theorem serveCommand_serving (rule : State → State) (s : State)
    (h : s.cur.regs.faulted = false) : serveCommand rule s = .next (rule (beginCommand s)) := by
  simp [serveCommand, h]

theorem withCount_legal (c : Count) (rule : Nat → State → State) (s : State)
    (h : c.toNat ≤ 16) : withCount c rule s = rule c.toNat s := by
  simp [withCount, Count.legal, countOperand, h]

theorem withCount_illegal (c : Count) (rule : Nat → State → State) (s : State)
    (h : 16 < c.toNat) : withCount c rule s = faultEntry s := by
  simp [withCount, Count.legal, Nat.not_le.mpr h]

end Sys2Proof.Machine
end

