-- ==== Sys2Proof/Laws/PerInstr.lean ====
section
/-! SUPPORT. Statements for all instructions, one lemma per constructor. -/

namespace Sys2Proof.Laws

/-- The encoder fills the fields as the opcode map says (R61, R63): RSV is 0, CNT holds the count of
the two commands that have one and is 0 elsewhere, and OPC selects the instruction back. -/
def EncodedFields.Statement (i : Instr) : Prop :=
  (encode i).rsv = 0 ∧
  (usesCount (encode i).opc = false → (encode i).cnt = 0) ∧
  selectCommand (encode i).opc (encode i).cnt (encode i).base (encode i).blen = some i

theorem EncodedFields.init (base blen : Nat) : EncodedFields.Statement (.init base blen) := by
  simp [EncodedFields.Statement, encode, selectCommand]

theorem EncodedFields.rdbit : EncodedFields.Statement .rdbit := by
  simp [EncodedFields.Statement, encode, selectCommand]

theorem EncodedFields.rdbits (count : Count) : EncodedFields.Statement (.rdbits count) := by
  simp [EncodedFields.Statement, encode, selectCommand, usesCount]

theorem EncodedFields.pkbits (count : Count) : EncodedFields.Statement (.pkbits count) := by
  simp [EncodedFields.Statement, encode, selectCommand, usesCount]

theorem EncodedFields.rdu16le : EncodedFields.Statement .rdu16le := by
  simp [EncodedFields.Statement, encode, selectCommand]

theorem EncodedFields.rdu32le : EncodedFields.Statement .rdu32le := by
  simp [EncodedFields.Statement, encode, selectCommand]

theorem EncodedFields.rdu24be : EncodedFields.Statement .rdu24be := by
  simp [EncodedFields.Statement, encode, selectCommand]

theorem EncodedFields.isempty : EncodedFields.Statement .isempty := by
  simp [EncodedFields.Statement, encode, selectCommand]

end Sys2Proof.Laws
end

