-- ==== Sys2Proof/Laws/Reads.lean ====
section
/-! SUPPORT. What a ReadBits step returns and leaves, in terms of the next bits of the stream, and how
two steps in a row compose. -/

namespace Sys2Proof.Machine

variable {w : Config.AddrWidth}

theorem loadsFor_zero {n : Nat} {r : Regs} (h : n ≤ r.rem.toNat) : r.loadsFor n = 0 := by
  simp [Regs.loadsFor, Nat.sub_eq_zero_of_le h]

theorem loadsFor_one {n : Nat} {r : Regs} (h : r.rem.toNat < n) (hn : n ≤ r.rem.toNat + 16) :
    r.loadsFor n = 1 := by
  rw [Regs.loadsFor]; omega

theorem unloadedWord_zero (w : Config.AddrWidth) (m : Memory) (r : Regs) :
    unloadedWord w m r 0
      = joinBytes (byteAt m (w.wrap (r.ptr + 1))) (byteAt m (w.wrap r.ptr)) := rfl

theorem loadAddrs_one {n : Nat} {r : Regs} (h : r.loadsFor n = 1) :
    r.loadAddrs w n = [w.wrap r.ptr, w.wrap (r.ptr + 1)] := by
  simp [Regs.loadAddrs, h, List.range_succ]

/-- Extract with the next word in place is the next bits of the stream (R90, R46). -/
theorem nextBits_eq_extract (w : Config.AddrWidth) (m : Memory) (r : Regs) (n : Nat)
    (hr : r.rem.toNat ≤ 16) (hn : n ≤ 16) :
    nextBits w m r n = extract r.word r.rem.toNat (unloadedWord w m r 0) n := by
  have h1 := (unloadedWord w m r 1).isLt
  rw [extract_eq _ _ _ _ hr hn, nextBits, upcoming,
    show 2 ^ (r.rem.toNat + 32 - n) = 2 ^ 16 * 2 ^ (r.rem.toNat + 16 - n) by
      rw [← Nat.pow_add]; congr 1; omega, ← Nat.div_div_eq_div_mul]
  congr 1
  omega

theorem extract_within (word : Word) (rem : Nat) (x y : Word) (n : Nat) (h : n ≤ rem) :
    extract word rem x n = extract word rem y n := by
  simp [extract, h]

/-- ReadBits where the bits are there and the host kept its duty on the bytes to load. -/
theorem readBits_clean (n : Nat) (s : State) (hn : n ≤ 16) (hr : s.cur.regs.InRange s.addrW)
    (ha : n ≤ s.cur.regs.available) (hc : s.cur.CleanFor s.addrW n) :
    readBits n s = some (nextBits s.addrW s.mem s.cur.regs n, { s with cur := { s.cur with
      regs  := s.cur.regs.advance s.addrW s.mem n
      reads := s.cur.reads ++ s.cur.regs.loadAddrs s.addrW n } }) := by
  have hrem := hr.rem_le
  rw [nextBits_eq_extract _ _ _ _ hrem hn]
  by_cases h : n ≤ s.cur.regs.rem.toNat
  · have hl := loadsFor_zero h
    rw [readBits_within _ _ h, extract_within _ _ 0 (unloadedWord s.addrW s.mem s.cur.regs 0) _ h]
    simp [setRem, setRegs, Regs.advance, Regs.loadAddrs, hl, s.addrW.wrap_of_lt hr.ptr_lt]
  · have hl := loadsFor_one (n := n) (r := s.cur.regs) (by omega) (by omega)
    have hlen : 2 ≤ s.cur.regs.len := by rw [Regs.available] at ha; omega
    rw [Instance.CleanFor, loadAddrs_one hl] at hc
    rw [readBits_crossing _ _ (by omega) hlen,
      loadWord_clean s (hc _ (by simp)) (hc _ (by simp)), ← unloadedWord_zero]
    simp only [setRem, setRegs, Regs.advance, hl, loadAddrs_one hl]
    have : 16 - (n - s.cur.regs.rem.toNat) = s.cur.regs.rem.toNat + 16 * 1 - n := by omega
    simp [this]

theorem advance_rem {m : Memory} {n : Nat} {r : Regs} (hr : r.rem.toNat ≤ 16) :
    (r.advance w m n).rem.toNat = r.rem.toNat + 16 * r.loadsFor n - n := by
  have : r.rem.toNat + 16 * r.loadsFor n - n < 2 ^ 5 := by rw [Regs.loadsFor]; omega
  simpa [Regs.advance] using this

theorem loadsFor_le_len {n : Nat} {r : Regs} (ha : n ≤ r.available) :
    2 * r.loadsFor n ≤ r.len := by
  unfold Regs.available at ha
  unfold Regs.loadsFor
  omega

@[simp] theorem advance_len {m : Memory} {n : Nat} {r : Regs} :
    (r.advance w m n).len = r.len - 2 * r.loadsFor n := rfl

@[simp] theorem advance_ptr {m : Memory} {n : Nat} {r : Regs} :
    (r.advance w m n).ptr = w.wrap (r.ptr + 2 * r.loadsFor n) := rfl

@[simp] theorem advance_faulted {m : Memory} {n : Nat} {r : Regs} :
    (r.advance w m n).faulted = r.faulted := rfl

/-- Registers in their widths stay in them (R13). -/
theorem advance_inRange {m : Memory} {n : Nat} {r : Regs} (hr : r.InRange w) :
    (r.advance w m n).InRange w where
  rem_le := by
    rw [advance_rem hr.rem_le]
    have := hr.rem_le
    unfold Regs.loadsFor
    omega
  ptr_lt := w.wrap_lt _
  len_lt := Nat.lt_of_le_of_lt (Nat.sub_le _ _) hr.len_lt

theorem loadsFor_advance {m : Memory} {n k : Nat} {r : Regs} (hr : r.rem.toNat ≤ 16) :
    r.loadsFor n + (r.advance w m n).loadsFor k = r.loadsFor (n + k) := by
  have h := advance_rem (w := w) (m := m) (n := n) hr
  unfold Regs.loadsFor at h ⊢
  omega

theorem unloadedWord_advance {m : Memory} {n j : Nat} {r : Regs} :
    unloadedWord w m (r.advance w m n) j = unloadedWord w m r (r.loadsFor n + j) := by
  simp only [unloadedWord, advance_ptr, w.wrap_wrap_add, Nat.mul_add, Nat.add_assoc]

/-- Two reads in a row advance the registers as one read of both widths. -/
theorem advance_advance {m : Memory} {n k : Nat} {r : Regs} (hr : r.rem.toNat ≤ 16) :
    (r.advance w m n).advance w m k = r.advance w m (n + k) := by
  have hl := loadsFor_advance (w := w) (m := m) (n := n) (k := k) hr
  rw [Regs.advance, unloadedWord_advance, advance_rem hr, Regs.advance.eq_1 w m (n + k), ← hl]
  simp only [Regs.mk.injEq]
  refine ⟨?_, ?_, ?_, ?_, rfl⟩
  · by_cases h : (r.advance w m n).loadsFor k = 0
    · rw [if_pos h, h, Nat.add_zero, Regs.advance]
    · rw [if_neg h, if_neg (by omega), Nat.add_sub_assoc (by omega)]
  · congr 1
    have : n ≤ r.rem.toNat + 16 * r.loadsFor n := by rw [Regs.loadsFor]; omega
    omega
  · rw [advance_ptr, w.wrap_wrap_add, Nat.mul_add, Nat.add_assoc]
  · rw [advance_len, Nat.mul_add, Nat.sub_sub]

theorem loadAddrs_advance {m : Memory} {n k : Nat} {r : Regs} (hr : r.rem.toNat ≤ 16) :
    r.loadAddrs w n ++ (r.advance w m n).loadAddrs w k = r.loadAddrs w (n + k) := by
  rw [Regs.loadAddrs, Regs.loadAddrs, Regs.loadAddrs, ← loadsFor_advance (w := w) (m := m) hr, Nat.mul_add,
    List.range_add, List.map_append, List.map_map]
  congr 1
  apply List.map_congr_left
  intro j _
  simp [Nat.add_assoc]

theorem div_two_pow_split (v a k : Nat) :
    v / 2 ^ a = v / 2 ^ (a + k) * 2 ^ k + v % 2 ^ (a + k) / 2 ^ a := by
  rw [Nat.pow_add, ← Nat.div_div_eq_div_mul, Nat.mod_mul_right_div_self]
  exact (Nat.div_add_mod' _ _).symm

theorem concat_mod (h x a b : Nat) (hx : x < 2 ^ b) :
    (h * 2 ^ b + x) % 2 ^ (a + b) = h % 2 ^ a * 2 ^ b + x := by
  rw [Nat.add_comm a b, Nat.pow_add, Nat.mod_mul, Nat.mul_comm h, Nat.mul_add_mod,
    Nat.mul_add_div (Nat.two_pow_pos b), Nat.mod_eq_of_lt hx, Nat.div_eq_of_lt hx, Nat.add_comm,
    Nat.mul_comm, Nat.add_zero]

theorem high_mod (h x p : Nat) (hp : p ≤ 16) : (h * 2 ^ 16 + x) % 2 ^ p = x % 2 ^ p := by
  rw [show h * 2 ^ 16 = 2 ^ p * (2 ^ (16 - p) * h) by
    rw [← Nat.mul_assoc, ← Nat.pow_add, Nat.add_sub_cancel' hp, Nat.mul_comm], Nat.mul_add_mod]

/-- `upcoming` without the bits already taken. -/
theorem upcoming_mod {m : Memory} {n : Nat} {r : Regs} (hr : r.rem.toNat ≤ 16)
    (h : n ≤ r.rem.toNat + 32) :
    upcoming w m (r.advance w m n) / 2 ^ (16 * r.loadsFor n)
      = upcoming w m r % 2 ^ (r.rem.toNat + 32 - n) := by
  have hrem := advance_rem (w := w) (m := m) (n := n) hr
  have h0 := (unloadedWord w m r 0).isLt
  have h1 := (unloadedWord w m r 1).isLt
  have h2 := (unloadedWord w m r 2).isLt
  have h3 := (unloadedWord w m r 3).isLt
  have hl : r.loadsFor n = 0 ∧ n ≤ r.rem.toNat ∨
      r.loadsFor n = 1 ∧ r.rem.toNat < n ∧ n ≤ r.rem.toNat + 16 ∨
      r.loadsFor n = 2 ∧ r.rem.toNat + 16 < n := by
    unfold Regs.loadsFor; omega
  simp only [upcoming, unloadedWord_advance, hrem, field_eq, Nat.pow_zero, Nat.div_one]
  have split32 (h x : Nat) : h * 2 ^ 32 + x * 2 ^ 16 = (h * 2 ^ 16 + x) * 2 ^ 16 := by ring
  rcases hl with ⟨hl, hn⟩ | ⟨hl, hn, hn'⟩ | ⟨hl, hn⟩ <;> simp only [Regs.advance, hl]
  · rw [show r.rem.toNat + 32 - n = (r.rem.toNat - n) + 32 by omega, Nat.add_assoc, Nat.add_assoc,
      concat_mod _ _ _ _ (by omega), Nat.mod_mod_of_dvd _ (Nat.pow_dvd_pow _ (by omega))]
    simp
  · rw [show r.rem.toNat + 32 - n = (r.rem.toNat + 16 - n) + 16 by omega, split32, split32,
      concat_mod _ _ _ _ h1, high_mod _ _ _ (by omega)]
    simp only [Nat.reduceAdd, Nat.mul_one, Nat.one_ne_zero, if_false, Nat.sub_self]
    omega
  · rw [split32, split32, high_mod _ _ _ (by omega)]
    simp only [Nat.reduceAdd, Nat.reduceMul]
    rw [show r.rem.toNat + 32 - n = r.rem.toNat + 16 * 2 - n by omega]
    simp
    omega

/-- The next `n + k` bits are the next `n` and then the next `k` after them, high and low. -/
theorem nextBits_add {m : Memory} {n k : Nat} {r : Regs} (hr : r.rem.toNat ≤ 16)
    (h : n + k ≤ r.rem.toNat + 32) :
    nextBits w m r (n + k) = nextBits w m r n * 2 ^ k + nextBits w m (r.advance w m n) k := by
  have hu := upcoming_mod (w := w) (m := m) (n := n) hr (by omega)
  have hrem := advance_rem (w := w) (m := m) (n := n) hr
  have hl : n ≤ r.rem.toNat + 16 * r.loadsFor n := by unfold Regs.loadsFor; omega
  have hl2 : 16 * r.loadsFor n ≤ 32 := by unfold Regs.loadsFor; omega
  rw [nextBits, nextBits, nextBits, hrem, show r.rem.toNat + 16 * r.loadsFor n - n + 32 - k
      = 16 * r.loadsFor n + (r.rem.toNat + 32 - (n + k)) by omega, Nat.pow_add,
    ← Nat.div_div_eq_div_mul, hu, div_two_pow_split _ (r.rem.toNat + 32 - (n + k)) k,
    show r.rem.toNat + 32 - (n + k) + k = r.rem.toNat + 32 - n by omega]

theorem nextBits_lt (w : Config.AddrWidth) (m : Memory) (r : Regs) (n : Nat) (hn : n ≤ r.rem.toNat + 32) :
    nextBits w m r n < 2 ^ n := by
  rw [nextBits]
  apply Nat.div_lt_of_lt_mul
  rw [← Nat.pow_add, show r.rem.toNat + 32 - n + n = r.rem.toNat + 32 by omega, Nat.pow_add, upcoming]
  have := field_lt r.word.toNat 0 r.rem.toNat
  have := (unloadedWord w m r 0).isLt
  have := (unloadedWord w m r 1).isLt
  generalize 2 ^ r.rem.toNat = p at *
  omega

end Sys2Proof.Machine
end

