-- ==== Sys2Proof/Laws/System.lean ====
section
/-! SUPPORT. The system's instances, and what a step can do. -/

namespace Sys2Proof.Machine

/-! ### Bringing an instance into service -/

section swap
variable (k : Nat) (s : State)

@[simp] theorem swap_zero : s.swap 0 = s := rfl

@[simp] theorem swap_addrW : (s.swap k).addrW = s.addrW := by
  unfold State.swap; split <;> [rfl; split <;> rfl]

@[simp] theorem swap_mem : (s.swap k).mem = s.mem := by
  unfold State.swap; split <;> [rfl; split <;> rfl]

@[simp] theorem swap_pending : (s.swap k).pending = s.pending := by
  unfold State.swap; split <;> [rfl; split <;> rfl]

@[simp] theorem swap_draws : (s.swap k).draws = s.draws := by
  unfold State.swap; split <;> [rfl; split <;> rfl]

@[simp] theorem swap_inputs : (s.swap k).inputs = s.inputs := by
  unfold State.swap; split <;> [rfl; split <;> rfl]

@[simp] theorem swap_others_length : (s.swap k).others.length = s.others.length := by
  unfold State.swap; split <;> [rfl; split <;> simp]

@[simp] theorem swap_hasInst (j : Nat) : (s.swap k).hasInst j = s.hasInst j := by
  simp [State.hasInst]
end swap

/-- The instance in service after `swap k` is instance `k`. -/
theorem swap_cur {k : Nat} {s : State} {e : Instance} (h : s.inst k = some e) :
    (s.swap k).cur = e := by
  cases k with
  | zero => simpa [State.inst] using h
  | succ j =>
    simp only [State.inst] at h
    simp [State.swap, h]

/-- Swapping twice puts every instance back. -/
theorem swap_swap (k : Nat) (s : State) : (s.swap k).swap k = s := by
  cases k with
  | zero => rfl
  | succ j =>
    unfold State.swap
    cases h : s.others[j]? with
    | none => simp [h]
    | some e =>
      obtain ⟨hj, rfl⟩ := List.getElem?_eq_some_iff.mp h
      simp [hj]

theorem inst_of_hasInst {k : Nat} {s : State} (h : s.hasInst k = true) : ∃ e, s.inst k = some e := by
  cases k with
  | zero => exact ⟨_, rfl⟩
  | succ j =>
    simp only [State.hasInst, decide_eq_true_eq] at h
    exact ⟨s.others[j], by simp [State.inst, List.getElem?_eq_getElem (show j < s.others.length by omega)]⟩

/-- Putting a served instance `k` back: instance `k` is the one that was in service, and every other
one is as it was. -/
theorem inst_swap_of_others {k : Nat} {s u : State} (hk : s.hasInst k = true)
    (ho : u.others = (s.swap k).others) (j : Nat) :
    (u.swap k).inst j = if j = k then some u.cur else s.inst j := by
  cases k with
  | zero =>
    simp only [swap_zero] at ho ⊢
    cases j with
    | zero => simp [State.inst]
    | succ j => simp [State.inst, ho]
  | succ k =>
    simp only [State.hasInst, decide_eq_true_eq] at hk
    have hk' : k < s.others.length := by omega
    have hs : s.others[k]? = some s.others[k] := List.getElem?_eq_getElem hk'
    have hso : (s.swap (k + 1)).others = s.others.set k s.cur := by simp [State.swap, hs]
    rw [hso] at ho
    have huk : u.others[k]? = some s.cur := by simp [ho, hk']
    have hu : u.swap (k + 1) = { u with cur := s.cur, others := u.others.set k u.cur } := by
      simp [State.swap, huk]
    rw [hu]
    cases j with
    | zero => simp [State.inst]
    | succ j =>
      simp only [State.inst, ho, List.getElem?_set, List.length_set]
      by_cases hj : k = j
      · subst hj; simp [hk']
      · have : ¬ j + 1 = k + 1 := by omega
        rw [if_neg hj, if_neg hj, if_neg this]

/-! ### What a step can do -/

theorem mapNext_eq_next {f : State → State} {o : Host.Outcome State Fault Refusal} {t : State} :
    mapNext f o = .next t ↔ ∃ u, o = .next u ∧ f u = t := by
  cases o <;> simp [mapNext]

theorem onInst_eq_next {k : Nat} {act : State → Host.Outcome State Fault Refusal} {s t : State} :
    onInst k act s = .next t ↔
      s.hasInst k = true ∧ ∃ u, act (s.swap k) = .next u ∧ u.swap k = t := by
  rw [onInst]
  split
  · simp [mapNext_eq_next, *]
  · simp [*]

theorem step_idle {s : State} (h : s.inputs = []) : step s = .next s := by
  rw [step, h]

theorem step_event {s : State} {e : HostEvent} {rest : List HostEvent} (h : s.inputs = e :: rest) :
    step s = handle e s.popInput := by
  rw [step, h]

/-- Every way a step reaches a next state. -/
theorem step_cases {s t : State} (h : step s = .next t) :
    (s.inputs = [] ∧ t = s) ∨
    (∃ k tr rest u, s.inputs = .command k tr :: rest ∧ s.hasInst k = true ∧
      serve tr (s.popInput.swap k) = .next u ∧ t = u.swap k) ∨
    (∃ k rest, s.inputs = .reset k :: rest ∧ s.hasInst k = true ∧
      t = (resetCurrent (s.popInput.swap k)).swap k) ∨
    (∃ k tr rest u, s.inputs = .resetDuring k tr :: rest ∧ s.hasInst k = true ∧
      serve tr (s.popInput.swap k) = .next u ∧ t = (abandonCommand u).swap k) ∨
    (∃ a b rest, s.inputs = .write a b :: rest ∧ t = hostWrite a b s.popInput) ∨
    (∃ rest, s.inputs = .publish :: rest ∧ t = hostPublish s.popInput) := by
  cases hi : s.inputs with
  | nil =>
    rw [step_idle hi] at h
    injection h with h
    exact .inl ⟨rfl, h.symm⟩
  | cons e rest =>
    rw [step_event hi] at h
    cases e with
    | command k tr =>
      obtain ⟨hk, u, hu, rfl⟩ := onInst_eq_next.mp (show onInst k (serve tr) _ = _ from h)
      exact .inr (.inl ⟨k, tr, rest, u, rfl, hk, hu, rfl⟩)
    | reset k =>
      obtain ⟨hk, u, hu, rfl⟩ :=
        onInst_eq_next.mp (show onInst k (fun s => .next (resetCurrent s)) _ = _ from h)
      injection hu with hu
      exact .inr (.inr (.inl ⟨k, rest, rfl, hk, by rw [hu]⟩))
    | resetDuring k tr =>
      obtain ⟨hk, u, hu, rfl⟩ :=
        onInst_eq_next.mp (show onInst k (fun s => mapNext abandonCommand (serve tr s)) _ = _ from h)
      obtain ⟨v, hv, rfl⟩ := mapNext_eq_next.mp hu
      exact .inr (.inr (.inr (.inl ⟨k, tr, rest, v, rfl, hk, hv, rfl⟩)))
    | write a b =>
      injection (show Host.Outcome.next (hostWrite a b s.popInput) = _ from h) with h
      exact .inr (.inr (.inr (.inr (.inl ⟨a, b, rest, rfl, h.symm⟩))))
    | publish =>
      injection (show Host.Outcome.next (hostPublish s.popInput) = _ from h) with h
      exact .inr (.inr (.inr (.inr (.inr ⟨rest, rfl, h.symm⟩))))

/-- Serving is running the decoded command's meaning, or the fault entry. -/
theorem serve_ok {t : Transaction} {i : Instr} (h : decode t = .ok i) (s : State) :
    serve t s = exec i s := by
  rw [serve, h]

theorem serve_error {t : Transaction} {c : IllegalCommand} (h : decode t = .error c) (s : State) :
    serve t s = serveIllegal s := by
  rw [serve, h]

end Sys2Proof.Machine
end

