-- ==== Sys2Proof/Tests/Slice0.lean ====
section
/-! SUPPORT. Tests, whose expected results are the spec's own (95_test_vectors.md and 30_encoding.md
R72), and for every obligation with hypotheses a witness that meets them. -/

namespace Sys2Proof.Tests

open Sys2Proof.Machine

/-! ### Helpers -/

/-- The bytes `bs` at `a`, `a + 1`, …. -/
def bytes : Nat → List Byte → Memory
  | _, []      => []
  | a, b :: bs => (a, b) :: bytes (a + 1) bs

/-- A system of two instances whose first has the registers `r` and the session `[base, base+len)`. -/
def serving (r : Regs) (base len : Nat) (m : Memory) : State :=
  { State.resetSystem Config.addrW 1 with
    cur := ⟨r, ⟨base, len, []⟩, none, []⟩
    mem := m }

/-- `s` with the events `es` to come. -/
def withInputs (es : List HostEvent) (s : State) : State := { s with inputs := es }

/-- The state an outcome goes on to; the state after reset if it stops. -/
def after : Host.Outcome State Fault Refusal → State
  | .next t => t
  | _       => State.reset

/-- What the spec's vectors show of an outcome: the response, the registers and the bytes read. -/
def shown : Host.Outcome State Fault Refusal → Option (Option Response × Regs × List Nat)
  | .next t => some (t.cur.response, t.cur.regs, t.cur.reads)
  | _       => none

/-! ### Well-formedness and decoding -/

theorem test_wellFormed_count_limit :
    (Instr.rdbits 16).wellFormed = true ∧ (Instr.pkbits 16).wellFormed = true := by decide

theorem test_rdbits_17_is_ill_formed : (Instr.rdbits 17).wellFormed = false := by decide

theorem test_pkbits_31_is_ill_formed : (Instr.pkbits 31).wellFormed = false := by decide

/-- R72, R63: OPC 0x1 in bits 3..0, BASE and BLEN beside. -/
theorem test_decode_init : decode ⟨0x00000001, 0x1000, 4⟩ = .ok (.init 0x1000 4) := by rfl

/-- R63: `…0010`. -/
theorem test_decode_rdbit :
    decode ⟨0b00000000000000000000000000000010, 0, 0⟩ = .ok .rdbit := by rfl

/-- R63: `…ccccc0011` with CNT = 8 (V24 writes it 0x83). -/
theorem test_decode_rdbits :
    decode ⟨0b00000000000000000000000010000011, 0, 0⟩ = .ok (.rdbits 8) := by rfl

/-- R72: `pkbits 16` is 0x104. -/
theorem test_decode_pkbits :
    decode ⟨0b00000000000000000000000100000100, 0, 0⟩ = .ok (.pkbits 16) := by rfl

theorem test_decode_rdu16le : decode ⟨0x00000005, 0, 0⟩ = .ok .rdu16le := by rfl

theorem test_decode_rdu32le : decode ⟨0x00000006, 0, 0⟩ = .ok .rdu32le := by rfl

theorem test_decode_rdu24be : decode ⟨0x00000007, 0, 0⟩ = .ok .rdu24be := by rfl

theorem test_decode_isempty : decode ⟨0x00000008, 0, 0⟩ = .ok .isempty := by rfl

/-- V37, V38, V39: reserved opcodes. -/
theorem test_decode_reserved_opcodes :
    decode ⟨0x0, 0, 0⟩ = .error (.reservedOpcode 0x0) ∧
    decode ⟨0x9, 0, 0⟩ = .error (.reservedOpcode 0x9) ∧
    decode ⟨0xF, 0, 0⟩ = .error (.reservedOpcode 0xF) := ⟨rfl, rfl, rfl⟩

/-- V40: a reserved bit. -/
theorem test_decode_reserved_bit : decode ⟨0x203, 0, 0⟩ = .error (.reservedBits 1) := by rfl

/-- V41, V42: a stray count. -/
theorem test_decode_stray_count :
    decode ⟨0x12, 0, 0⟩ = .error (.strayCount 1) ∧
    decode ⟨0x15, 0, 0⟩ = .error (.strayCount 1) := ⟨rfl, rfl⟩

/-- V27, V31: a count of 17. -/
theorem test_decode_count_17 :
    decode ⟨0x113, 0, 0⟩ = .error (.countOutOfRange 17) ∧
    decode ⟨0x114, 0, 0⟩ = .error (.countOutOfRange 17) := ⟨rfl, rfl⟩

/-- R72: `rdbits 16` encodes to 0x103, and `init` keeps its side operands. -/
theorem test_encode :
    encode (.rdbits 16) = ⟨0x00000103, 0, 0⟩ ∧
    encode (.init 0xFFFFFFFF 2) = ⟨0x00000001, 0xFFFFFFFF, 2⟩ := by decide

/-- Table words read as commands (V22, V27), and one placed as the next command. -/
theorem test_table_words :
    decodeTableWord 32 0x103 = some (.rdbits 16) ∧ decodeTableWord 32 0x113 = none ∧
    (State.reset.withFetchWord 32 0x2).inputs = [.command 0 ⟨0x2, 0, 0⟩] := by decide

/-! ### The spec's vectors, one command each -/

/-- V11. -/
theorem test_init_V11 :
    shown (exec (.init 0x1000 4) State.reset)
      = some (some ⟨.ok, 0⟩, ⟨0x0000, 0, 0x1000, 4, false⟩, []) := by decide

/-- V43: a FAULTED engine refuses even INIT. -/
theorem test_init_faulted_V43 :
    shown (exec (.init 0x1000 2) (serving ⟨0x0000, 0, 0x1000, 2, true⟩ 0x1000 2 []))
      = some (some ⟨.fault, 0⟩, ⟨0x0000, 0, 0x1000, 2, true⟩, []) := by decide

/-- V12. -/
theorem test_rdbit_V12 :
    shown (exec .rdbit (serving ⟨0x0000, 0, 0x2000, 2, false⟩ 0x2000 2 (bytes 0x2000 [0x00, 0x80])))
      = some (some ⟨.ok, 1⟩, ⟨0x8000, 15, 0x2002, 0, false⟩, [0x2000, 0x2001]) := by decide

/-- V14. -/
theorem test_rdbit_underflow_V14 :
    shown (exec .rdbit (serving ⟨0x0001, 0, 0x2002, 1, false⟩ 0x2000 3 []))
      = some (some ⟨.underflow, 0⟩, ⟨0x0001, 0, 0x2002, 1, false⟩, []) := by decide

/-- V24: across a word boundary. -/
theorem test_rdbits_V24 :
    shown (exec (.rdbits 8)
        (serving ⟨0xCDAB, 3, 0x1002, 2, false⟩ 0x1000 4 (bytes 0x1000 [0xAB, 0xCD, 0x12, 0x34])))
      = some (some ⟨.ok, 0x66⟩, ⟨0x3412, 11, 0x1004, 0, false⟩, [0x1002, 0x1003]) := by decide

/-- V30: across the top of the address space. -/
theorem test_rdbits_wrap_V30 :
    shown (exec (.rdbits 16)
        (serving ⟨0x0000, 0, 0xFFFFFFFF, 2, false⟩ 0xFFFFFFFF 2 [(0, 0x12), (0xFFFFFFFF, 0x34)]))
      = some (some ⟨.ok, 0x1234⟩, ⟨0x1234, 0, 0x1, 0, false⟩, [0xFFFFFFFF, 0x0]) := by decide

/-- V30's load on an engine of 4-bit addresses: the same at the top of 16 addresses. -/
theorem test_rdbits_wrap_width_4 :
    shown (exec (.rdbits 16)
        { State.resetSystem ⟨4, by decide⟩ 0 with
          cur := ⟨⟨0x0000, 0, 0xF, 2, false⟩, ⟨0xF, 2, []⟩, none, []⟩
          mem := [(0, 0x12), (0xF, 0x34)] })
      = some (some ⟨.ok, 0x1234⟩, ⟨0x1234, 0, 0x1, 0, false⟩, [0xF, 0x0]) := by decide

/-- V29: one byte left, the absent one zero. -/
theorem test_pkbits_V29 :
    shown (exec (.pkbits 16)
        (serving ⟨0xFFFF, 4, 0x3003, 1, false⟩ 0x3001 3 (bytes 0x3001 [0xFF, 0xFF, 0xEE])))
      = some (some ⟨.ok, 0xF00E⟩, ⟨0xFFFF, 4, 0x3003, 1, false⟩, [0x3003]) := by decide

/-- V32: the peek of V24's bits. -/
theorem test_pkbits_V32 :
    shown (exec (.pkbits 8)
        (serving ⟨0xCDAB, 3, 0x1002, 2, false⟩ 0x1000 4 (bytes 0x1000 [0xAB, 0xCD, 0x12, 0x34])))
      = some (some ⟨.ok, 0x66⟩, ⟨0xCDAB, 3, 0x1002, 2, false⟩, [0x1002, 0x1003]) := by decide

/-- V16: across a word boundary before the swap. -/
theorem test_rdu16le_V16 :
    shown (exec .rdu16le
        (serving ⟨0x2211, 12, 0x1002, 2, false⟩ 0x1000 4 (bytes 0x1000 [0x11, 0x22, 0x33, 0x44])))
      = some (some ⟨.ok, 0x1421⟩, ⟨0x4433, 12, 0x1004, 0, false⟩, [0x1002, 0x1003]) := by decide

/-- V1, the source's own example. -/
theorem test_rdu32le_V1 :
    shown (exec .rdu32le
        (serving ⟨0x0000, 0, 0x1000, 4, false⟩ 0x1000 4 (bytes 0x1000 [0x56, 0x78, 0x12, 0x34])))
      = some (some ⟨.ok, 0x12345678⟩, ⟨0x3412, 0, 0x1004, 0, false⟩,
          [0x1000, 0x1001, 0x1002, 0x1003]) := by decide

/-- V17: the second step underflows and the first stays consumed. -/
theorem test_rdu32le_half_V17 :
    shown (exec .rdu32le
        (serving ⟨0x2211, 8, 0x1002, 2, false⟩ 0x1000 4 (bytes 0x1000 [0x11, 0x22, 0x33, 0x44])))
      = some (some ⟨.underflow, 0⟩, ⟨0x4433, 8, 0x1004, 0, false⟩, [0x1002, 0x1003]) := by decide

/-- V19: one bit off alignment. -/
theorem test_rdu24be_V19 :
    shown (exec .rdu24be
        (serving ⟨0xABCD, 15, 0x1002, 2, false⟩ 0x1000 4 (bytes 0x1000 [0xCD, 0xAB, 0x12, 0xEF])))
      = some (some ⟨.ok, 0x579BDE⟩, ⟨0xEF12, 7, 0x1004, 0, false⟩, [0x1002, 0x1003]) := by decide

/-- V20: the second step underflows. -/
theorem test_rdu24be_half_V20 :
    shown (exec .rdu24be
        (serving ⟨0x0000, 0, 0x1000, 2, false⟩ 0x1000 2 (bytes 0x1000 [0xAA, 0xBB])))
      = some (some ⟨.underflow, 0⟩, ⟨0xBBAA, 0, 0x1002, 0, false⟩, [0x1000, 0x1001]) := by decide

/-- V35: the odd last byte is ignored. -/
theorem test_isempty_V35 :
    shown (exec .isempty (serving ⟨0x0000, 0, 0x1002, 1, false⟩ 0x1000 3 (bytes 0x1002 [0xFF])))
      = some (some ⟨.ok, 1⟩, ⟨0x0000, 0, 0x1002, 1, false⟩, []) := by decide

/-- V36: a non-zero bit is left. -/
theorem test_isempty_V36 :
    shown (exec .isempty (serving ⟨0x0005, 3, 0x1002, 0, false⟩ 0x1000 2 []))
      = some (some ⟨.ok, 0⟩, ⟨0x0005, 3, 0x1002, 0, false⟩, []) := by decide

/-- V27: `.word 0x113` faults and consumes nothing. -/
theorem test_fault_entry_V27 :
    shown (serve ⟨0x113, 0, 0⟩ (serving ⟨0xCDAB, 3, 0x1002, 0, false⟩ 0x1000 2 []))
      = some (some ⟨.fault, 0⟩, ⟨0xCDAB, 3, 0x1002, 0, true⟩, []) := by decide

/-- R150: reset is the way out of FAULTED; the other instance is left alone. -/
theorem test_reset_event :
    (after (step (withInputs [.reset 0] (serving ⟨0xCDAB, 3, 0x1002, 0, true⟩ 0x1000 2 [])))).cur
      = Instance.reset := by decide

/-- R153 step 3: the writes reach the memory in the order they were made, which keeps its form. -/
theorem test_publish_event :
    (after (step { State.reset with pending := [(5, 1), (5, 2), (3, 7)], inputs := [.publish] })).mem
      = [(3, 7), (5, 2)] := by decide

/-! ### Witnesses: the hypotheses of the obligations are met -/

/-- `AB CD 12 34` at 0x1000, nothing loaded (V23's buffer). -/
def fresh : State :=
  serving ⟨0x0000, 0, 0x1000, 4, false⟩ 0x1000 4 (bytes 0x1000 [0xAB, 0xCD, 0x12, 0x34])

/-- The same with one word loaded and `rem` bits of it left. -/
def loaded (rem : Count) : State :=
  serving ⟨0xCDAB, rem, 0x1002, 2, false⟩ 0x1000 4 (bytes 0x1000 [0xAB, 0xCD, 0x12, 0x34])

/-- A three-byte buffer with its one word loaded, `rem` bits of it left, and the odd byte. -/
def odd (rem : Count) : State :=
  serving ⟨0xCDAB, rem, 0x1002, 1, false⟩ 0x1000 3 (bytes 0x1000 [0xAB, 0xCD, 0x12])

/-- A two-byte buffer with its word loaded and `rem` bits of it left. -/
def drained (rem : Count) : State :=
  serving ⟨0xCDAB, rem, 0x1002, 0, false⟩ 0x1000 2 (bytes 0x1000 [0xAB, 0xCD])

/-- A FAULTED engine. -/
def faulty : State := serving ⟨0xCDAB, 3, 0x1002, 0, true⟩ 0x1000 2 []

/-- A live session with both its bytes disturbed. -/
def disturbedTwice : State :=
  { State.resetSystem Config.addrW 1 with
    cur := ⟨⟨0x0000, 0, 0x1000, 2, false⟩, ⟨0x1000, 2, [0x1000, 0x1001]⟩, none, []⟩ }

theorem witness_DecodeOfEncodeIsTheInstruction : (Instr.rdbits 16).wellFormed = true := by decide

theorem witness_DecodedCommandEncodesToItsWord :
    decode ⟨0x104, 7, 7⟩ = .ok (.pkbits 16) ∧ decode ⟨0x1, 7, 7⟩ = .ok (.init 7 7) := ⟨rfl, rfl⟩

theorem witness_SideOperandsMatterOnlyToInit :
    (⟨0x103, 0, 0⟩ : Transaction).cmd = (⟨0x103, 5, 6⟩ : Transaction).cmd ∧
    (⟨0x103, 0, 0⟩ : Transaction).cmd.toNat % 16 ≠ 1 := by decide

theorem witness_StepServesTheDecodedCommand :
    (withInputs [.command 1 ⟨0x103, 0, 0⟩] fresh).inputs = [.command 1 ⟨0x103, 0, 0⟩] ∧
    1 ≤ (withInputs [.command 1 ⟨0x103, 0, 0⟩] fresh).others.length ∧
    decode ⟨0x103, 0, 0⟩ = .ok (.rdbits 16) := ⟨rfl, by decide, rfl⟩

/-- One word for each of R64 to R67. -/
theorem witness_IllegalWordTakesTheFaultEntry :
    (∀ w ∈ [0x0, 0x9, 0x203, 0x12, 0x113], ¬ LegalWord w) ∧
    (withInputs [.command 1 ⟨0x113, 0, 0⟩] fresh).inst 1 = some Instance.reset ∧
    Instance.reset.regs.faulted = false := by
  refine ⟨?_, by decide, by decide⟩
  simp [LegalWord]

theorem witness_FaultedEngineAnswersFaultUntilReset :
    faulty.cur.regs.faulted = true ∧
    step (withInputs [.command 1 ⟨0x2, 0, 0⟩] faulty)
      = .next (after (step (withInputs [.command 1 ⟨0x2, 0, 0⟩] faulty))) ∧
    (withInputs [.command 1 ⟨0x2, 0, 0⟩] faulty).inst 0 = some faulty.cur := ⟨rfl, rfl, rfl⟩

theorem witness_FaultedIsSetOnlyByTheFaultEntry :
    step (withInputs [.command 0 ⟨0x0, 0, 0⟩] fresh)
      = .next (after (step (withInputs [.command 0 ⟨0x0, 0, 0⟩] fresh))) ∧
    (withInputs [.command 0 ⟨0x0, 0, 0⟩] fresh).inst 0 = some fresh.cur ∧
    fresh.cur.regs.faulted = false ∧
    (after (step (withInputs [.command 0 ⟨0x0, 0, 0⟩] fresh))).cur.regs.faulted = true :=
  ⟨rfl, rfl, rfl, rfl⟩

/-- A response that is not OK, and an INIT. -/
theorem witness_ErrorsCarryValueZero :
    ((after (serve ⟨0x3, 0, 0⟩ faulty)).cur.response.map Response.status) ≠ some .ok ∧
    decode ⟨0x1, 8, 9⟩ = .ok (.init 8 9) := ⟨by decide, rfl⟩

/-- The largest operands the width admits, and both values of FAULTED. -/
theorem witness_InitStartsASession :
    0xFFFFFFFF < 2 ^ fresh.addrW.bits ∧ fresh.cur.regs.faulted = false ∧ faulty.cur.regs.faulted = true := by decide

theorem witness_InitNotesTheWritesNotYetVisible :
    exec (.init 0x10 2) { fresh with pending := [(0x11, 1)] }
      = .next (after (exec (.init 0x10 2) { fresh with pending := [(0x11, 1)] })) ∧
    0x11 < 2 ^ fresh.addrW.bits ∧
    (after (exec (.init 0x10 2) { fresh with pending := [(0x11, 1)] })).cur.session.disturbed
      = [0x11] := ⟨rfl, by decide, by decide⟩

/-- One state for each clause, at the edges: a count of exactly REM, of one more, and of 17. -/
theorem witness_ReadBitsFollowsItsRule :
    faulty.cur.regs.faulted = true ∧ 16 < (17 : Count).toNat ∧
    (16 : Count).toNat ≤ (loaded 16).cur.regs.rem.toNat ∧
    (drained 3).cur.regs.rem.toNat < (4 : Count).toNat ∧ (drained 3).cur.regs.len < 2 ∧
    (loaded 3).cur.regs.rem.toNat < (4 : Count).toNat ∧ 2 ≤ (loaded 3).cur.regs.len ∧
    (∃ b0 b1 s0 s1, memRead (loaded 3).cur.regs.ptr (beginCommand (loaded 3)) = (b0, s0) ∧
      memRead ((loaded 3).cur.regs.ptr + 1) s0 = (b1, s1)) :=
  ⟨by decide, by decide, by decide, by decide, by decide, by decide, by decide, _, _, _, _, rfl, rfl⟩

theorem witness_ReadBitFollowsItsRule :
    faulty.cur.regs.faulted = true ∧ 0 < (loaded 1).cur.regs.rem.toNat ∧
    ((odd 0).cur.regs.rem = 0 ∧ (odd 0).cur.regs.len < 2) ∧
    (fresh.cur.regs.rem = 0 ∧ 2 ≤ fresh.cur.regs.len) ∧
    (∃ b0 b1 s0 s1, memRead fresh.cur.regs.ptr (beginCommand fresh) = (b0, s0) ∧
      memRead (fresh.cur.regs.ptr + 1) s0 = (b1, s1)) :=
  ⟨by decide, by decide, by decide, by decide, _, _, _, _, rfl, rfl⟩

/-- READ_U32_LE with exactly its 32 bits left, and READ_BITS of 16 on a full lookahead. -/
theorem witness_ReadCommandsReturnTheNextBits :
    (Instr.rdu32le.readWidth = some 32 ∧ fresh.cur.regs.faulted = false ∧
      fresh.cur.regs.InRange fresh.addrW ∧ 32 ≤ fresh.cur.regs.available ∧
      fresh.cur.CleanFor fresh.addrW 32) ∧
    ((Instr.rdbits 16).wellFormed = true ∧ (Instr.rdbits 16).readWidth = some 16 ∧
      (loaded 16).cur.regs.InRange (loaded 16).addrW ∧ 16 ≤ (loaded 16).cur.regs.available ∧
      (loaded 16).cur.CleanFor (loaded 16).addrW 16) :=
  ⟨⟨by decide, by decide, ⟨by decide, by decide, by decide⟩, by decide,
      fun _ _ => List.not_mem_nil⟩,
    by decide, by decide, ⟨by decide, by decide, by decide⟩, by decide,
    fun _ _ => List.not_mem_nil⟩

theorem witness_ReadsCompleteWhateverTheHostWrote :
    Instr.rdu16le.readWidth = some 16 ∧ disturbedTwice.cur.regs.faulted = false ∧
    disturbedTwice.cur.regs.InRange disturbedTwice.addrW ∧
    16 ≤ disturbedTwice.cur.regs.available :=
  ⟨by decide, by decide, ⟨by decide, by decide, by decide⟩, by decide⟩

theorem witness_UnderflowExactlyWhenBitsAreMissing :
    (Instr.rdbits 4).wellFormed = true ∧ (drained 3).cur.regs.faulted = false ∧
    (Instr.rdbits 4).readWidth = some 4 ∧ (drained 3).cur.regs.available < 4 := by decide

/-- An underflow that changed nothing, one after a first step, and a command REM can serve after it. -/
theorem witness_UnderflowIsRecoverable :
    (exec .rdbit (odd 0) = .next (after (exec .rdbit (odd 0))) ∧
      (after (exec .rdbit (odd 0))).cur.response = some ⟨.underflow, 0⟩) ∧
    (exec .rdu32le (loaded 15) = .next (after (exec .rdu32le (loaded 15))) ∧
      (after (exec .rdu32le (loaded 15))).cur.response = some ⟨.underflow, 0⟩ ∧
      (Instr.rdbits 15).wellFormed = true ∧ (Instr.rdbits 15).readWidth = some 15 ∧
      15 ≤ (after (exec .rdu32le (loaded 15))).cur.regs.rem.toNat) :=
  ⟨⟨rfl, by decide⟩, rfl, by decide, by decide, by decide, by decide⟩

/-- The three clauses: fewer than 16 bits, 16 to 31 for READ_U32_LE, 16 to 23 for READ_U24_BE. -/
theorem witness_SecondUnderflowKeepsTheFirstStep :
    (odd 15).cur.regs.available < 16 ∧
    (16 ≤ (loaded 15).cur.regs.available ∧ (loaded 15).cur.regs.available < 32) ∧
    (16 ≤ (loaded 7).cur.regs.available ∧ (loaded 7).cur.regs.available < 24) := by decide

theorem witness_ReadU16LeSwapsTheBytes :
    (exec (.rdbits 16) fresh = .next (after (exec (.rdbits 16) fresh)) ∧
      (after (exec (.rdbits 16) fresh)).cur.response = some ⟨.ok, 0xCDAB⟩) ∧
    (exec (.rdbits 16) (odd 15) = .next (after (exec (.rdbits 16) (odd 15))) ∧
      (after (exec (.rdbits 16) (odd 15))).cur.response = some ⟨.underflow, 0⟩) :=
  ⟨⟨rfl, by decide⟩, rfl, by decide⟩

/-- The three cases: the first read fails, the second fails, both complete. -/
theorem witness_ReadU32LeIsTwoReadU16Le :
    (exec .rdu16le (odd 15) = .next (after (exec .rdu16le (odd 15))) ∧
      (after (exec .rdu16le (odd 15))).cur.response = some ⟨.underflow, 0⟩) ∧
    (after (exec .rdu16le (loaded 15))).cur.response.map Response.status = some .ok ∧
    (after (exec .rdu16le (after (exec .rdu16le (loaded 15))))).cur.response
      = some ⟨.underflow, 0⟩ ∧
    (after (exec .rdu16le fresh)).cur.response = some ⟨.ok, 0xABCD⟩ ∧
    (after (exec .rdu16le (after (exec .rdu16le fresh)))).cur.response = some ⟨.ok, 0x1234⟩ :=
  ⟨⟨rfl, by decide⟩, by decide, by decide, by decide, by decide⟩

theorem witness_ReadU24BeIsARunOf24Bits :
    (exec (.rdbits 16) (odd 15) = .next (after (exec (.rdbits 16) (odd 15))) ∧
      (after (exec (.rdbits 16) (odd 15))).cur.response = some ⟨.underflow, 0⟩) ∧
    (after (exec (.rdbits 16) (loaded 7))).cur.response.map Response.status = some .ok ∧
    (after (exec (.rdbits 8) (after (exec (.rdbits 16) (loaded 7))))).cur.response
      = some ⟨.underflow, 0⟩ ∧
    (after (exec (.rdbits 16) fresh)).cur.response = some ⟨.ok, 0xCDAB⟩ ∧
    (after (exec (.rdbits 8) (after (exec (.rdbits 16) fresh)))).cur.response
      = some ⟨.ok, 0x34⟩ :=
  ⟨⟨rfl, by decide⟩, by decide, by decide, by decide, by decide⟩

/-- The two word boundaries: REM = 0, and REM = 16 right after a load. -/
theorem witness_AlignedMarshaling :
    (fresh.cur.regs.rem = 0 ∧ 4 ≤ fresh.cur.regs.len ∧
      byteAt fresh.mem ((fresh.cur.regs.ptr + 0) % 2 ^ fresh.addrW.bits) = 0xAB ∧
      byteAt fresh.mem ((fresh.cur.regs.ptr + 1) % 2 ^ fresh.addrW.bits) = 0xCD ∧
      byteAt fresh.mem ((fresh.cur.regs.ptr + 2) % 2 ^ fresh.addrW.bits) = 0x12 ∧
      byteAt fresh.mem ((fresh.cur.regs.ptr + 3) % 2 ^ fresh.addrW.bits) = 0x34) ∧
    ((loaded 16).cur.regs.rem = 16 ∧ 2 ≤ (loaded 16).cur.regs.len ∧
      (loaded 16).cur.regs.word = (0xCD : Byte) ++ (0xAB : Byte) ∧
      byteAt (loaded 16).mem (((loaded 16).cur.regs.ptr + 0) % 2 ^ (loaded 16).addrW.bits) = 0x12 ∧
      byteAt (loaded 16).mem (((loaded 16).cur.regs.ptr + 1) % 2 ^ (loaded 16).addrW.bits) = 0x34) := by
  decide

/-- PTR at the top of the address space, and one below it. -/
theorem witness_LoadWrapsAtTheTopOfMemory :
    (serving ⟨0x0000, 0, 0xFFFFFFFF, 2, false⟩ 0xFFFFFFFF 2 []).cur.regs.ptr + 1
      = 2 ^ (serving ⟨0x0000, 0, 0xFFFFFFFF, 2, false⟩ 0xFFFFFFFF 2 []).addrW.bits ∧
    (serving ⟨0x0000, 0, 0xFFFFFFFE, 2, false⟩ 0xFFFFFFFE 2 []).cur.regs.ptr + 2
      = 2 ^ (serving ⟨0x0000, 0, 0xFFFFFFFE, 2, false⟩ 0xFFFFFFFE 2 []).addrW.bits := by decide

/-- The clauses: FAULTED, 17, exactly REM, and one more than REM with 0, 1 and 2 bytes left. -/
theorem witness_PeekFollowsItsRule :
    faulty.cur.regs.faulted = true ∧ 16 < (17 : Count).toNat ∧
    (3 : Count).toNat ≤ (drained 3).cur.regs.rem.toNat ∧
    ((drained 3).cur.regs.rem.toNat < (4 : Count).toNat ∧ (drained 3).cur.regs.len = 0) ∧
    ((odd 3).cur.regs.rem.toNat < (4 : Count).toNat ∧ (odd 3).cur.regs.len = 1) ∧
    ((loaded 3).cur.regs.rem.toNat < (4 : Count).toNat ∧ 2 ≤ (loaded 3).cur.regs.len) ∧
    (∃ b0 b1 s0 s1, memRead (odd 3).cur.regs.ptr (beginCommand (odd 3)) = (b0, s0) ∧
      memRead ((odd 3).cur.regs.ptr + 1) s0 = (b1, s1)) :=
  ⟨by decide, by decide, by decide, by decide, by decide, by decide, _, _, _, _, rfl, rfl⟩

theorem witness_PeekDisturbsNoLaterCommand :
    (16 : Count).toNat ≤ 16 ∧ 1 ≤ (loaded 3).cur.regs.len ∧
    (loaded 3).cur.regs.ptr % 2 ^ (loaded 3).addrW.bits ∉ (loaded 3).cur.session.disturbed ∧
    ((loaded 3).cur.regs.ptr + 1) % 2 ^ (loaded 3).addrW.bits ∉ (loaded 3).cur.session.disturbed ∧
    Instr.rdbit.wellFormed = true ∧ Instr.rdbit.firstRead = some 1 := by decide

theorem witness_PeekAgreesWithRead :
    (4 : Count).toNat ≤ (drained 4).cur.regs.rem.toNat ∧ 2 ≤ (loaded 3).cur.regs.len ∧
    (odd 3).cur.regs.rem.toNat < (4 : Count).toNat ∧ (odd 3).cur.regs.len < 2 := by decide

theorem witness_CountZeroChangesNothing : (drained 0).cur.regs.faulted = false := by decide

theorem witness_IsEmptyFollowsItsRule :
    faulty.cur.regs.faulted = true ∧ (drained 1).cur.regs.faulted = false := by decide

theorem witness_IsEmptySeesEveryRemainingBit :
    (∃ i, i < (drained 1).cur.regs.rem.toNat ∧ (drained 1).cur.regs.word.getLsbD i = true) ∧
    2 ≤ (loaded 0).cur.regs.len ∧ State.reset.cur.regs = Regs.reset ∧
    1 < 2 := ⟨⟨0, by decide⟩, by decide, rfl, by decide⟩

theorem witness_CommandFrame :
    exec (.pkbits 4) (loaded 3) = .next (after (exec (.pkbits 4) (loaded 3))) ∧
    (Instr.pkbits 4).wellFormed = true ∧ (∀ base blen, Instr.pkbits 4 ≠ .init base blen) :=
  ⟨rfl, by decide, by simp⟩

/-- A step that loads, and one that starts a session. -/
theorem witness_ViewShrinksOnlyFromTheFront :
    step (withInputs [.command 0 ⟨0x2, 0, 0⟩] fresh)
      = .next (after (step (withInputs [.command 0 ⟨0x2, 0, 0⟩] fresh))) ∧
    (withInputs [.command 0 ⟨0x2, 0, 0⟩] fresh).inst 0 = some fresh.cur ∧
    step (withInputs [.command 0 ⟨0x1, 9, 9⟩] fresh)
      = .next (after (step (withInputs [.command 0 ⟨0x1, 9, 9⟩] fresh))) := ⟨rfl, rfl, rfl⟩

theorem witness_WordIsUnobservableWhenExhausted :
    (loaded 0).cur.regs.rem = 0 ∧
    exec (.pkbits 9) (loaded 0) = .next (after (exec (.pkbits 9) (loaded 0))) := ⟨rfl, rfl⟩

theorem witness_CommandsReadOnlyTheFrontOfTheBuffer :
    exec .rdu24be (loaded 7) = .next (after (exec .rdu24be (loaded 7))) ∧
    (Instr.rdbits 7).readWidth = some 7 ∧ 7 ≤ (loaded 7).cur.regs.rem.toNat :=
  ⟨rfl, by decide, by decide⟩

/-- R25 by hand: 0xCDAB rotated left by 3 is 0x6D5E; the hypotheses hold at both ends of REM. -/
theorem witness_RotatedWordHoldsTheUnconsumedBitsHigh :
    rotated 0xCDAB 13 = 0x6D5E ∧ 16 ≤ 16 ∧ 0 < 16 ∧ rotated 0xCDAB 16 = 0xCDAB ∧
    rotated 0xCDAB 0 = 0xCDAB := by decide

theorem witness_ResetClearsTheInstance :
    (withInputs [.reset 0] faulty).inst 0 = some faulty.cur ∧
    step (withInputs [.command 0 ⟨0x2, 0, 0⟩] fresh)
      = .next (after (step (withInputs [.command 0 ⟨0x2, 0, 0⟩] fresh))) ∧
    (after (step (withInputs [.command 0 ⟨0x2, 0, 0⟩] fresh))).inst 0
      = some (after (step (withInputs [.command 0 ⟨0x2, 0, 0⟩] fresh))).cur := ⟨rfl, rfl, rfl⟩

/-- The least width, an instance of a system, and a command that reads. -/
theorem witness_AddressWidthIsAParameter :
    2 ≤ 2 ∧ Instance.reset ∈ (State.resetSystem ⟨2, by decide⟩ 0).instances ∧
    step (withInputs [.command 0 ⟨0x2, 0, 0⟩] fresh)
      = .next (after (step (withInputs [.command 0 ⟨0x2, 0, 0⟩] fresh))) ∧
    exec .rdbit fresh = .next (after (exec .rdbit fresh)) ∧
    0x1001 ∈ (after (exec .rdbit fresh)).cur.reads := ⟨by decide, by decide, rfl, rfl, by decide⟩

theorem witness_ResetValuesAreThoseOfTheSpec :
    Instance.reset ∈ (State.resetSystem Config.addrW 2).instances := by decide

theorem witness_AfterResetTheBufferIsEmpty :
    State.reset.cur.regs = ⟨0x0000, 0, 0, 0, false⟩ ∧ Instr.rdu24be.readWidth = some 24 := by decide

/-- A write inside the range of a live session. -/
theorem witness_HostWriteBreaksTheDutyOfLiveSessions :
    (withInputs [.write 0x1003 7] fresh).inst 0 = some fresh.cur ∧
    fresh.cur.session.base < 2 ^ fresh.addrW.bits ∧ fresh.cur.session.len < 2 ^ fresh.addrW.bits ∧
    3 < fresh.cur.session.len ∧
    0x1003 % 2 ^ fresh.addrW.bits = (fresh.cur.session.base + 3) % 2 ^ fresh.addrW.bits := by decide

theorem witness_DisturbedBytesAreDraws :
    disturbedTwice.cur.regs.faulted = false ∧ disturbedTwice.cur.regs.rem = 0 ∧
    2 ≤ disturbedTwice.cur.regs.len ∧
    disturbedTwice.cur.regs.ptr % 2 ^ disturbedTwice.addrW.bits
      ∈ disturbedTwice.cur.session.disturbed ∧
    (disturbedTwice.cur.regs.ptr + 1) % 2 ^ disturbedTwice.addrW.bits
      ∈ disturbedTwice.cur.session.disturbed := by decide

/-- An address written twice, and one not written. -/
theorem witness_PublishMakesWritesVisible :
    ([(5, 1), (5, 2)] : List (Nat × Byte)) = [(5, 1)] ++ (5, 2) :: [] ∧
    (∀ c : Byte, ((5 : Nat), c) ∉ ([] : List (Nat × Byte))) ∧
    (∀ b : Byte, ((6 : Nat), b) ∉ ([(5, 1), (5, 2)] : List (Nat × Byte))) := by
  refine ⟨rfl, fun _ => List.not_mem_nil, fun b h => ?_⟩
  have h' : (6 : Nat) ∈ ([(5, 1), (5, 2)] : List (Nat × Byte)).map Prod.fst :=
    List.mem_map.2 ⟨_, h, rfl⟩
  exact absurd h' (by decide)

theorem witness_OnlyTheAddressedInstanceChanges :
    step (withInputs [.command 1 ⟨0x1, 9, 9⟩] fresh)
      = .next (after (step (withInputs [.command 1 ⟨0x1, 9, 9⟩] fresh))) ∧
    step fresh = .next fresh ∧ fresh.inputs = [] := ⟨rfl, rfl, rfl⟩

/-- READ_U16_LE at instance 0 and INIT at instance 1. -/
theorem witness_InstancesDoNotInterfere :
    (withInputs [.command 0 ⟨0x5, 0, 0⟩, .command 1 ⟨0x1, 9, 9⟩] fresh).DutyKept ∧
    Sys2Proof.core.run 2 (withInputs [.command 0 ⟨0x5, 0, 0⟩, .command 1 ⟨0x1, 9, 9⟩] fresh)
      = .next (after (Sys2Proof.core.run 2
          (withInputs [.command 0 ⟨0x5, 0, 0⟩, .command 1 ⟨0x1, 9, 9⟩] fresh))) :=
  ⟨by unfold State.DutyKept; decide, rfl⟩

/-- The invariant holds in a state that is not the reset state, and a step leads on from it. -/
theorem witness_EveryStepKeepsTheInvariant :
    (withInputs [.command 0 ⟨0x103, 0, 0⟩] (drained 3)).Inv ∧
    step (withInputs [.command 0 ⟨0x103, 0, 0⟩] (drained 3))
      = .next (after (step (withInputs [.command 0 ⟨0x103, 0, 0⟩] (drained 3)))) := by
  have hi : (withInputs [.command 0 ⟨0x103, 0, 0⟩] (drained 3)).instances
      = [(drained 3).cur, Instance.reset] := rfl
  refine ⟨⟨by decide, fun p hp => (List.not_mem_nil hp).elim, ?_, ?_⟩, rfl⟩ <;> rw [hi] <;>
    intro e he <;> simp only [List.mem_cons, List.not_mem_nil, or_false] at he <;>
    rcases he with rfl | rfl
  · exact ⟨⟨by decide, by decide, by decide⟩, by decide, by decide, by decide, by decide, by decide⟩
  · exact ⟨⟨by decide, by decide, by decide⟩, by decide, by decide, by decide, by decide, by decide⟩
  · exact ⟨fun _ _ _ => by decide, fun w hw => (List.not_mem_nil hw).elim,
      fun a ha => (List.not_mem_nil ha).elim⟩
  · exact ⟨fun h => absurd h (by decide), fun w hw => (List.not_mem_nil hw).elim,
      fun a ha => (List.not_mem_nil ha).elim⟩

/-- A reading command in the middle of a session. -/
theorem witness_ReadsReturnTheStreamInOrder :
    Instr.rdu16le.readWidth = some 16 ∧ (loaded 3).cur.CursorInv (loaded 3).addrW ∧
    (loaded 3).cur.MemoryInv (loaded 3).addrW (loaded 3).mem (loaded 3).pending ∧
    (loaded 3).cur.session.disturbed = [] ∧ (loaded 3).cur.regs.faulted = false ∧
    16 ≤ (loaded 3).cur.regs.available :=
  ⟨by decide, ⟨⟨by decide, by decide, by decide⟩, by decide, by decide, by decide, by decide,
      by decide⟩,
    ⟨fun _ _ _ => by decide, fun w hw => (List.not_mem_nil hw).elim,
      fun a ha => (List.not_mem_nil ha).elim⟩, by decide, by decide, by decide⟩

/-- V4's packed values and their bytes. -/
theorem witness_PackedValuesReadBack :
    (∀ f ∈ ([(3, 5), (5, 0x13), (12, 0xABC), (7, 0x55), (5, 0x1F)] : List (Count × Nat)),
      f.1.toNat ≤ 16 ∧ f.2 < 2 ^ f.1.toNat) ∧
    packedWords [(3, 5), (5, 0x13), (12, 0xABC), (7, 0x55), (5, 0x1F)] = 2 ∧
    0x1000 < 2 ^ fresh.addrW.bits ∧ 2 * 2 < 2 ^ fresh.addrW.bits ∧
    (∀ k, k < 2 →
      (byteAt (bytes 0x1000 [0xAB, 0xB3, 0xBF, 0xCA])
        ((0x1000 + 2 * k) % 2 ^ fresh.addrW.bits)).toNat
          = packedWord [(3, 5), (5, 0x13), (12, 0xABC), (7, 0x55), (5, 0x1F)] k % 256 ∧
      (byteAt (bytes 0x1000 [0xAB, 0xB3, 0xBF, 0xCA])
        ((0x1000 + 2 * k + 1) % 2 ^ fresh.addrW.bits)).toNat
          = packedWord [(3, 5), (5, 0x13), (12, 0xABC), (7, 0x55), (5, 0x1F)] k / 256) := by decide

/-- An INIT whose operands are one past the width. -/
theorem witness_WideOperandsAreReducedToTheWidth :
    (withInputs [.command 1 ⟨0x1, 2 ^ 32 + 5, 2 ^ 32⟩] fresh).inputs
      = [.command 1 ⟨0x1, 2 ^ 32 + 5, 2 ^ 32⟩] ∧
    decode ⟨0x1, 2 ^ 32 + 5, 2 ^ 32⟩ = .ok (.init (2 ^ 32 + 5) (2 ^ 32)) ∧
    (withInputs [.command 1 ⟨0x1, 2 ^ 32 + 5, 2 ^ 32⟩] fresh).inst 1 = some Instance.reset ∧
    Instance.reset.regs.faulted = false := ⟨rfl, rfl, rfl, rfl⟩

end Sys2Proof.Tests
end

section
/-! PROOFS. What serving a command leaves unchanged, and which addresses it puts on the memory
port. -/

namespace Sys2Proof.Machine

/-- What serving a command leaves as it was, from state `s` to state `t`: everything but the engine in
service and the count of draws. The bytes read follow those read before, and their addresses exist
(R8, R14, R34). -/
structure ServiceFrame (s t : State) : Prop where
  addrW   : t.addrW = s.addrW
  others  : t.others = s.others
  mem     : t.mem = s.mem
  pending : t.pending = s.pending
  inputs  : t.inputs = s.inputs
  reads   : ∃ rs, t.cur.reads = s.cur.reads ++ rs ∧ ∀ a ∈ rs, a < s.addrW.size

namespace ServiceFrame

/-- An operation that writes registers, session or response reads nothing. -/
theorem of_same_reads {s t : State} (addrW : t.addrW = s.addrW) (others : t.others = s.others)
    (mem : t.mem = s.mem) (pending : t.pending = s.pending) (inputs : t.inputs = s.inputs)
    (reads : t.cur.reads = s.cur.reads) : ServiceFrame s t :=
  ⟨addrW, others, mem, pending, inputs, [], by simp [reads], by simp⟩

theorem refl (s : State) : ServiceFrame s s := of_same_reads rfl rfl rfl rfl rfl rfl

theorem trans {s t u : State} (h : ServiceFrame s t) (h' : ServiceFrame t u) :
    ServiceFrame s u := by
  obtain ⟨rs, hrs, hlt⟩ := h.reads
  obtain ⟨rs', hrs', hlt'⟩ := h'.reads
  refine ⟨h'.addrW.trans h.addrW, h'.others.trans h.others, h'.mem.trans h.mem,
    h'.pending.trans h.pending, h'.inputs.trans h.inputs, rs ++ rs', ?_, ?_⟩
  · rw [hrs', hrs, List.append_assoc]
  · rw [h.addrW] at hlt'
    exact fun a ha => (List.mem_append.mp ha).elim (hlt a) (hlt' a)

/-- A command that began with no byte read has read only addresses that exist. -/
theorem reads_lt {s t : State} (h : ServiceFrame (beginCommand s) t) :
    ∀ a ∈ t.cur.reads, a < s.addrW.size := by
  obtain ⟨rs, hrs, hlt⟩ := h.reads
  rw [hrs, beginCommand_reads, List.nil_append]
  exact hlt

end ServiceFrame

/-! ### The operations a rule is made of -/

theorem setRegs_serviceFrame (r : Regs) (s : State) : ServiceFrame s (setRegs r s) :=
  .of_same_reads rfl rfl rfl rfl rfl rfl

theorem setRem_serviceFrame (n : Nat) (s : State) : ServiceFrame s (setRem n s) :=
  setRegs_serviceFrame _ s

theorem respond_serviceFrame (st : Status) (v : Nat) (s : State) :
    ServiceFrame s (respond st v s) :=
  .of_same_reads rfl rfl rfl rfl rfl rfl

theorem faultEntry_serviceFrame (s : State) : ServiceFrame s (faultEntry s) :=
  (setRegs_serviceFrame _ s).trans (respond_serviceFrame _ _ _)

/-- The memory port carries the address modulo `2^ADDR_W` (R14). -/
theorem memRead_serviceFrame (a : Nat) (s : State) : ServiceFrame s (memRead a s).2 := by
  obtain ⟨d, hd⟩ := memRead_frame a s
  rw [hd]
  exact ⟨rfl, rfl, rfl, rfl, rfl, [s.addrW.wrap a], rfl, by simp [s.addrW.wrap_lt]⟩

theorem readWord_serviceFrame (a : Nat) (s : State) : ServiceFrame s (readWord a s).2 :=
  (memRead_serviceFrame a s).trans (memRead_serviceFrame (a + 1) _)

theorem loadWord_serviceFrame (s : State) : ServiceFrame s (loadWord s) :=
  (readWord_serviceFrame s.cur.regs.ptr s).trans (setRegs_serviceFrame _ _)

theorem readBits_serviceFrame {n v : Nat} {s t : State} (h : readBits n s = some (v, t)) :
    ServiceFrame s t := by
  obtain ⟨-, -, rfl⟩ | ⟨-, -, -, rfl⟩ := readBits_cases h
  · exact setRem_serviceFrame _ s
  · exact (loadWord_serviceFrame s).trans (setRem_serviceFrame _ _)

theorem peekWord_serviceFrame (s : State) : ServiceFrame s (peekWord s).2 := by
  unfold peekWord
  split
  · exact .refl s
  · exact memRead_serviceFrame s.cur.regs.ptr s
  · exact readWord_serviceFrame s.cur.regs.ptr s

theorem peekBits_serviceFrame (n : Nat) (s : State) : ServiceFrame s (peekBits n s).2 := by
  rw [peekBits]
  split
  · exact .refl s
  · exact peekWord_serviceFrame s

/-! ### The commands' rules -/

theorem readOne_serviceFrame (n : Nat) (f : Nat → Nat) (s : State) :
    ServiceFrame s (readOne n f s) := by
  unfold readOne
  split
  next => exact respond_serviceFrame _ _ s
  next h => exact (readBits_serviceFrame h).trans (respond_serviceFrame _ _ _)

theorem readTwo_serviceFrame (n m : Nat) (f : Nat → Nat → Nat) (s : State) :
    ServiceFrame s (readTwo n m f s) := by
  unfold readTwo
  split
  next => exact respond_serviceFrame _ _ s
  next hfirst =>
    refine (readBits_serviceFrame hfirst).trans ?_
    split
    next => exact respond_serviceFrame _ _ _
    next hsecond => exact (readBits_serviceFrame hsecond).trans (respond_serviceFrame _ _ _)

theorem peekRule_serviceFrame (n : Nat) (s : State) : ServiceFrame s (peekRule n s) :=
  (peekBits_serviceFrame n s).trans (respond_serviceFrame _ _ _)

theorem initRule_serviceFrame (base blen : Nat) (s : State) :
    ServiceFrame s (initRule base blen s) :=
  .of_same_reads rfl rfl rfl rfl rfl rfl

theorem isEmptyRule_serviceFrame (s : State) : ServiceFrame s (isEmptyRule s) :=
  respond_serviceFrame _ _ s

theorem withCount_serviceFrame {rule : Nat → State → State}
    (hrule : ∀ n s, ServiceFrame s (rule n s)) (c : Count) (s : State) :
    ServiceFrame s (withCount c rule s) := by
  unfold withCount
  split
  · exact hrule _ s
  · exact faultEntry_serviceFrame s

/-- Serving a command, FAULTED or not, touches no more than its rule does. -/
theorem serveCommand_serviceFrame {rule : State → State} (hrule : ∀ s, ServiceFrame s (rule s))
    {s t : State} (h : serveCommand rule s = .next t) : ServiceFrame (beginCommand s) t := by
  cases hf : s.cur.regs.faulted with
  | false =>
    rw [serveCommand_serving rule s hf] at h
    cases h
    exact hrule _
  | true =>
    rw [serveCommand_faulted rule s hf] at h
    cases h
    exact respond_serviceFrame _ _ _

/-! ### Every command -/

/-- R14, R34: a command changes the engine that serves it and nothing else of the system, and the
bytes it reads lie in the address space. -/
theorem exec_serviceFrame {i : Instr} {s t : State} (h : exec i s = .next t) :
    ServiceFrame (beginCommand s) t := by
  cases i with
  | init base blen => exact serveCommand_serviceFrame (initRule_serviceFrame base blen) h
  | rdbit => exact serveCommand_serviceFrame (readOne_serviceFrame 1 id) h
  | rdbits c =>
    exact serveCommand_serviceFrame (withCount_serviceFrame (readOne_serviceFrame · id) c) h
  | pkbits c => exact serveCommand_serviceFrame (withCount_serviceFrame peekRule_serviceFrame c) h
  | rdu16le => exact serveCommand_serviceFrame (readOne_serviceFrame 16 swap16) h
  | rdu32le => exact serveCommand_serviceFrame (readTwo_serviceFrame 16 16 joinU32le) h
  | rdu24be => exact serveCommand_serviceFrame (readTwo_serviceFrame 16 8 joinU24be) h
  | isempty => exact serveCommand_serviceFrame isEmptyRule_serviceFrame h

/-- The same for every command word, illegal ones included. -/
theorem serve_serviceFrame {tr : Transaction} {s t : State} (h : serve tr s = .next t) :
    ServiceFrame (beginCommand s) t := by
  cases hd : decode tr with
  | ok i =>
    rw [serve_ok hd] at h
    exact exec_serviceFrame h
  | error c =>
    rw [serve_error hd] at h
    exact serveCommand_serviceFrame faultEntry_serviceFrame h

end Sys2Proof.Machine
end

section
/-! PROOFS. The invariant after reset. -/

namespace Sys2Proof.Machine

/-- The empty session at address 0 with nothing loaded (R33, R151). -/
theorem reset_cursorInv (w : Config.AddrWidth) : Instance.reset.CursorInv w where
  in_range   := ⟨Nat.zero_le _, w.size_pos, w.size_pos⟩
  base_lt    := w.size_pos
  len_lt     := w.size_pos
  len_parity := rfl
  ptr_eq     := w.wrap_zero.symm
  rem_loaded := Nat.zero_le _

theorem reset_memoryInv (w : Config.AddrWidth) (m : Memory) :
    Instance.reset.MemoryInv w m [] where
  word_eq           := fun hloaded => absurd hloaded (Nat.lt_irrefl 0)
  pending_noted     := fun _ hp => (List.not_mem_nil hp).elim
  disturbed_covered := fun _ ha => (List.not_mem_nil ha).elim

theorem mem_instances_resetSystem {w : Config.AddrWidth} {n : Nat} {e : Instance}
    (he : e ∈ (State.resetSystem w n).instances) : e = Instance.reset :=
  (List.mem_cons.mp he).elim id List.eq_of_mem_replicate

theorem resetSystem_inv (w : Config.AddrWidth) (n : Nat) : (State.resetSystem w n).Inv where
  mem_wf     := reset_mem_wf n
  pending_lt := fun _ hp => (List.not_mem_nil hp).elim
  cursor     := fun _ he => mem_instances_resetSystem he ▸ reset_cursorInv w
  memory     := fun _ he => mem_instances_resetSystem he ▸ reset_memoryInv w []

end Sys2Proof.Machine
end

section
/-! PROOFS. 00_scope.md: the address width (R8). -/

namespace Sys2Proof.Machine

/-- R8: ADDR_W is a parameter of the system, whatever the host does to it. -/
theorem step_addrW {s t : State} (h : step s = .next t) : t.addrW = s.addrW := by
  have hserve {k : Nat} {tr : Transaction} {u : State}
      (hu : serve tr (s.popInput.swap k) = .next u) : u.addrW = s.addrW := by
    simpa using (serve_serviceFrame hu).addrW
  obtain ⟨-, rfl⟩ | ⟨k, tr, -, u, -, -, hu, rfl⟩ | ⟨k, -, -, -, rfl⟩ |
    ⟨k, tr, -, u, -, -, hu, rfl⟩ | ⟨a, b, -, -, rfl⟩ | ⟨-, -, rfl⟩ := step_cases h
  · rfl
  · rw [swap_addrW, hserve hu]
  · simp [resetCurrent]
  · rw [swap_addrW, ← hserve hu, abandonCommand]
  · rfl
  · rfl

/-- Settles O52: the width is a field no step writes, the invariant bounds PTR and LEN, and the
memory port carries every address reduced to the width. -/
theorem addressWidthIsAParameter : Obligations.AddressWidthIsAParameter := by
  refine ⟨fun b hb => ⟨⟨b, hb⟩, rfl, fun n => ⟨rfl, resetSystem_inv _ n⟩⟩, fun s => s.addrW.two_le,
    rfl, fun s t => step_addrW, fun s hs e he => ?_, fun i s t h => (exec_serviceFrame h).reads_lt⟩
  obtain ⟨-, hptr, hlen⟩ := (hs.cursor e he).in_range
  exact ⟨hptr, hlen⟩

end Sys2Proof.Machine
end

section
/-! PROOFS. The shared operations, case by case: serving, counts, commands of two ReadBits steps, and
the widths of the reading commands. -/

namespace Sys2Proof.Machine

/-- R138: all that serving a command whose word is legal can do. -/
theorem serveCommand_cases {rule : State → State} {s t : State}
    (h : serveCommand rule s = .next t) :
    (s.cur.regs.faulted = true ∧ t = answerFaulted (beginCommand s)) ∨
    (s.cur.regs.faulted = false ∧ t = rule (beginCommand s)) := by
  cases hf : s.cur.regs.faulted with
  | true =>
    rw [serveCommand_faulted rule s hf] at h
    exact .inl ⟨rfl, (Host.Outcome.next.inj h).symm⟩
  | false =>
    rw [serveCommand_serving rule s hf] at h
    exact .inr ⟨rfl, (Host.Outcome.next.inj h).symm⟩

theorem serveCommand_withCount_legal {c : Count} (rule : Nat → State → State) (s : State)
    (hcount : c.toNat ≤ 16) :
    serveCommand (withCount c rule) s = serveCommand (rule c.toNat) s := by
  simp only [serveCommand, withCount_legal c rule _ hcount]

/-- R110: once its first ReadBits step is done, a command of two is a command of the second. -/
theorem readTwo_of_some {n v : Nat} {s t : State} (k : Nat) (f : Nat → Nat → Nat)
    (h : readBits n s = some (v, t)) : readTwo n k f s = readOne k (f v) t := by
  rw [readTwo, h]
  rfl

theorem readTwo_of_none {n : Nat} {s : State} (k : Nat) (f : Nat → Nat → Nat)
    (h : readBits n s = none) : readTwo n k f s = respond .underflow 0 s := by
  rw [readTwo, h]

/-- R94: a peek writes no register. -/
theorem peekRule_regs (n : Nat) (s : State) : (peekRule n s).cur.regs = s.cur.regs := by
  obtain ⟨rs, d, h⟩ := peekBits_frame n s
  simp only [peekRule, respond_regs, h]

theorem toNat_le_of_rdbits_wellFormed {c : Count} (hw : (Instr.rdbits c).wellFormed = true) :
    c.toNat ≤ 16 :=
  of_decide_eq_true hw

theorem readWidth_le {i : Instr} {n : Nat} (hw : i.wellFormed = true)
    (hi : i.readWidth = some n) : n ≤ 32 := by
  cases i with
  | init | pkbits | isempty => cases hi
  | rdbit | rdu16le | rdu32le | rdu24be => cases hi; decide
  | rdbits c =>
    cases hi
    exact (toNat_le_of_rdbits_wellFormed hw).trans (by omega)

end Sys2Proof.Machine
end

section
/-! PROOFS. 10_state.md: the values after reset (R33). -/

namespace Sys2Proof.Machine

/-- Settles O39: a system after reset holds reset instances only. -/
theorem resetValuesAreThoseOfTheSpec : Obligations.ResetValuesAreThoseOfTheSpec := by
  intro w n e he
  rw [mem_instances_resetSystem he]
  rfl

end Sys2Proof.Machine
end

section
/-! PROOFS. The logical stream of a session (R31) in words: which of its bits the lookahead and the
words not yet loaded hold. -/

namespace Sys2Proof.Machine

variable {w : Config.AddrWidth} {m : Memory} {ses : Session} {e : Instance}

/-- R31: the `n` stream bits from bit `j` of word `k` on, none beyond that word, are a field of it. -/
theorem streamBits_within_word (k j n : Nat) (h : j + n ≤ 16) :
    streamBits w m ses (16 * k + j) n
      = (streamWord w m ses k).toNat / 2 ^ (16 - (j + n)) % 2 ^ n := by
  induction n with
  | zero => simp [streamBits, Nat.mod_one]
  | succ n ih =>
    have hbit : (streamBit w m ses (16 * k + j + n)).toNat
        = (streamWord w m ses k).toNat / 2 ^ (16 - (j + (n + 1))) % 2 := by
      rw [streamBit, show (16 * k + j + n) / 16 = k by omega,
        show 15 - (16 * k + j + n) % 16 = 16 - (j + (n + 1)) by omega, BitVec.getLsbD,
        Nat.toNat_testBit]
    rw [streamBits, ih (by omega), hbit, show 16 - (j + n) = 16 - (j + (n + 1)) + 1 by omega,
      Nat.pow_succ, ← Nat.div_div_eq_div_mul, Nat.pow_succ', Nat.mod_mul, Nat.add_comm]

/-- A whole word of the stream. -/
theorem streamBits_word (k : Nat) :
    streamBits w m ses (16 * k) 16 = (streamWord w m ses k).toNat := by
  rw [← Nat.add_zero (16 * k), streamBits_within_word k 0 16 (by omega)]
  simpa using Nat.mod_eq_of_lt (streamWord w m ses k).isLt

/-- The last `r` bits of a word. -/
theorem streamBits_word_end (k r : Nat) (hr : r ≤ 16) :
    streamBits w m ses (16 * k + (16 - r)) r = (streamWord w m ses k).toNat % 2 ^ r := by
  rw [streamBits_within_word k (16 - r) r (by omega), show 16 - (16 - r + r) = 0 by omega,
    Nat.pow_zero, Nat.div_one]

/-- Two runs of stream bits, one after the other. -/
theorem streamBits_add (c n k : Nat) :
    streamBits w m ses c (n + k)
      = streamBits w m ses c n * 2 ^ k + streamBits w m ses (c + n) k := by
  induction k with
  | zero => simp [streamBits]
  | succ k ih => rw [← Nat.add_assoc, streamBits, ih, streamBits, Nat.pow_succ, Nat.add_assoc c]; ring

theorem streamBits_lt (c n : Nat) : streamBits w m ses c n < 2 ^ n := by
  induction n with
  | zero => simp [streamBits]
  | succ n ih =>
    have := (streamBit w m ses (c + n)).toNat_lt
    rw [streamBits, Nat.pow_succ]
    omega

/-- The first `n` of a longer run of stream bits are its high ones. -/
theorem streamBits_high (c n k : Nat) :
    streamBits w m ses c (n + k) / 2 ^ k = streamBits w m ses c n := by
  rw [streamBits_add, Nat.mul_comm, Nat.mul_add_div (Nat.two_pow_pos k),
    Nat.div_eq_of_lt (streamBits_lt _ k), Nat.add_zero]

/-- R32: the cursor `C`, and REM bits of the loaded words after it. -/
theorem consumed_add_rem (hc : e.CursorInv w) :
    e.consumed + e.regs.rem.toNat = 16 * e.loadedWords :=
  Nat.sub_add_cancel hc.rem_loaded

/-- R21, R31: the words not yet loaded follow the loaded ones in the stream. -/
theorem unloadedWord_eq_streamWord (hc : e.CursorInv w) (j : Nat) :
    unloadedWord w m e.regs j = streamWord w m e.session (e.loadedWords + j) := by
  simp only [unloadedWord, streamWord, hc.ptr_eq, Session.addr, w.wrap_wrap_add, Nat.mul_add,
    Nat.add_assoc]

/-- R32: where the host left the session's bytes alone, the unconsumed bits of WORD are the stream
bits from the cursor to the end of the loaded words. -/
theorem unconsumed_eq_streamBits {pending : List (Nat × Byte)} (hc : e.CursorInv w)
    (hm : e.MemoryInv w m pending) (hd : e.session.disturbed = []) :
    e.regs.word.toNat % 2 ^ e.regs.rem.toNat
      = streamBits w m e.session e.consumed e.regs.rem.toNat := by
  have hrem := hc.in_range.rem_le
  have hsum := consumed_add_rem hc
  rcases Nat.eq_zero_or_pos e.regs.rem.toNat with h0 | hpos
  · simp [h0, streamBits, Nat.mod_one]
  · rw [hm.word_eq (by omega) (by simp [hd]) (by simp [hd]), ← streamBits_word_end _ _ hrem,
      show 16 * (e.loadedWords - 1) + (16 - e.regs.rem.toNat) = e.consumed by omega]

/-- The lookahead and the two words after it are the stream from the cursor on. -/
theorem upcoming_eq_streamBits {pending : List (Nat × Byte)} (hc : e.CursorInv w)
    (hm : e.MemoryInv w m pending) (hd : e.session.disturbed = []) :
    upcoming w m e.regs = streamBits w m e.session e.consumed (e.regs.rem.toNat + 32) := by
  rw [show e.regs.rem.toNat + 32 = e.regs.rem.toNat + 16 + 16 from rfl, streamBits_add,
    streamBits_add, ← Nat.add_assoc, consumed_add_rem hc,
    show 16 * e.loadedWords + 16 = 16 * (e.loadedWords + 1) from rfl, streamBits_word,
    streamBits_word, ← unconsumed_eq_streamBits hc hm hd, upcoming, field_eq,
    unloadedWord_eq_streamWord hc, unloadedWord_eq_streamWord hc]
  simp only [Nat.pow_zero, Nat.div_one, Nat.add_zero]
  ring

/-- R32: the bits a read takes next are the stream bits at the cursor. -/
theorem nextBits_eq_streamBits {pending : List (Nat × Byte)} (hc : e.CursorInv w)
    (hm : e.MemoryInv w m pending) (hd : e.session.disturbed = []) {n : Nat}
    (hn : n ≤ e.regs.rem.toNat + 32) :
    nextBits w m e.regs n = streamBits w m e.session e.consumed n := by
  rw [nextBits, upcoming_eq_streamBits hc hm hd,
    ← streamBits_high _ n (e.regs.rem.toNat + 32 - n), Nat.add_sub_cancel' hn]

/-- R32: reads of `n` bits move the cursor `n` bits on. -/
theorem consumed_answered_advance (hc : e.CursorInv w) {n : Nat} (ha : n ≤ e.regs.available)
    (st : Status) (v : Nat) (rs : List Nat) :
    (e.answered (e.regs.advance w m n) st v rs).consumed = e.consumed + n := by
  have hrem := advance_rem (w := w) (m := m) (n := n) hc.in_range.rem_le
  have hlen := loadsFor_le_len ha
  have hparity := hc.len_parity
  have hsum := consumed_add_rem hc
  have hloaded : (e.answered (e.regs.advance w m n) st v rs).loadedWords
      = e.loadedWords + e.regs.loadsFor n := by
    rw [Instance.loadedWords, Instance.answered, advance_len]
    change (e.session.len - _) / 2 = _
    omega
  have hn : n ≤ e.regs.rem.toNat + 16 * e.regs.loadsFor n := by rw [Regs.loadsFor]; omega
  rw [Instance.consumed, hloaded, Instance.answered, hrem]
  omega

end Sys2Proof.Machine
end

section
/-! PROOFS. 41_bit_extraction.md, 42_marshaling.md: a reading command that has its bits, where the
host kept its duty on the bytes it loads. -/

namespace Sys2Proof.Machine

/-- The state after reads of `n` bits in all, before the answer (R91). -/
def State.advanced (n : Nat) (s : State) : State :=
  { s with cur := { s.cur with
      regs  := s.cur.regs.advance s.addrW s.mem n
      reads := s.cur.reads ++ s.cur.regs.loadAddrs s.addrW n } }

/-- No duty is broken where no byte is noted. -/
theorem cleanFor_of_undisturbed {w : Config.AddrWidth} {e : Instance} (n : Nat)
    (hd : e.session.disturbed = []) : e.CleanFor w n :=
  fun _ _ => by simp [hd]

theorem available_advance {w : Config.AddrWidth} {m : Memory} {n k : Nat} {r : Regs}
    (hr : r.rem.toNat ≤ 16) (ha : n + k ≤ r.available) : k ≤ (r.advance w m n).available := by
  have hrem := advance_rem (w := w) (m := m) (n := n) hr
  have hn : n ≤ r.rem.toNat + 16 * r.loadsFor n := by rw [Regs.loadsFor]; omega
  have hlen := loadsFor_le_len (n := n) (r := r) (by omega)
  rw [Regs.available] at ha ⊢
  rw [hrem, advance_len]
  omega

section
variable {n k : Nat} {s : State} (hr : s.cur.regs.InRange s.addrW)
include hr

/-- A clean read of `n + k` bits in all is clean in its first `n`, and in the other `k` after them. -/
theorem cleanFor_add (hc : s.cur.CleanFor s.addrW (n + k)) :
    s.cur.CleanFor s.addrW n ∧ (s.advanced n).cur.CleanFor s.addrW k := by
  rw [Instance.CleanFor, ← loadAddrs_advance (m := s.mem) hr.rem_le] at hc
  exact ⟨fun a ha => hc a (List.mem_append_left _ ha), fun a ha => hc a (List.mem_append_right _ ha)⟩

theorem advanced_advanced : (s.advanced n).advanced k = s.advanced (n + k) := by
  simp only [State.advanced, advance_advance hr.rem_le, List.append_assoc,
    loadAddrs_advance hr.rem_le]

/-- A command of one ReadBits step answers the next bits. -/
theorem readOne_clean (f : Nat → Nat) (hn : n ≤ 16) (ha : n ≤ s.cur.regs.available)
    (hc : s.cur.CleanFor s.addrW n) :
    readOne n f s = respond .ok (f (nextBits s.addrW s.mem s.cur.regs n)) (s.advanced n) := by
  rw [readOne, readBits_clean n s hn hr ha hc]
  rfl

/-- A command of two ReadBits steps, whose values `f` joins as `g` arranges the bits of both. -/
theorem readTwo_clean {f : Nat → Nat → Nat} {g : Nat → Nat} (hn : n ≤ 16) (hk : k ≤ 16)
    (hfg : ∀ a b, a < 2 ^ n → b < 2 ^ k → f a b = g (a * 2 ^ k + b))
    (ha : n + k ≤ s.cur.regs.available) (hc : s.cur.CleanFor s.addrW (n + k)) :
    readTwo n k f s
      = respond .ok (g (nextBits s.addrW s.mem s.cur.regs (n + k))) (s.advanced (n + k)) := by
  obtain ⟨hcn, hck⟩ := cleanFor_add hr hc
  rw [readTwo_of_some k f (readBits_clean n s hn hr (by omega) hcn), ← advanced_advanced hr,
    nextBits_add hr.rem_le (by omega),
    ← hfg _ _ (nextBits_lt _ _ _ _ (by omega)) (nextBits_lt _ _ _ _ (by omega))]
  exact readOne_clean (s := s.advanced n) (advance_inRange hr) _ hk
    (available_advance hr.rem_le ha) hck

end

/-- R111: READ_U16_LE's arrangement of 16 bits. -/
theorem swap16_eq_arrange {v : Nat} (h : v < 2 ^ 16) : swap16 v = Instr.rdu16le.arrange v := by
  rw [swap16_eq, Instr.arrange]
  omega

/-- R112: READ_U32_LE's arrangement of its two reads. -/
theorem joinU32le_eq_arrange {a b : Nat} (ha : a < 2 ^ 16) (hb : b < 2 ^ 16) :
    joinU32le a b = Instr.rdu32le.arrange (a * 2 ^ 16 + b) := by
  rw [joinU32le_eq, swap16_eq, swap16_eq, Instr.arrange]
  omega

/-- R92, R93, R111 to R113: a reading command with its bits available and no broken duty on the bytes
it loads answers the next bits of the stream in its arrangement, and the registers advance past
them. -/
theorem exec_reading_clean {i : Instr} {n : Nat} {s : State} (hw : i.wellFormed = true)
    (hi : i.readWidth = some n) (hf : s.cur.regs.faulted = false)
    (hr : s.cur.regs.InRange s.addrW) (ha : n ≤ s.cur.regs.available)
    (hc : s.cur.CleanFor s.addrW n) :
    exec i s = .next (s.answers (s.cur.regs.advance s.addrW s.mem n) .ok
      (i.arrange (nextBits s.addrW s.mem s.cur.regs n)) (s.cur.regs.loadAddrs s.addrW n)
      s.draws) := by
  have serving {rule : State → State} {v : Nat}
      (h : rule (beginCommand s) = respond .ok v ((beginCommand s).advanced n)) :
      serveCommand rule s = .next (s.answers (s.cur.regs.advance s.addrW s.mem n) .ok v
        (s.cur.regs.loadAddrs s.addrW n) s.draws) := by
    rw [serveCommand_serving rule s hf, h]
    rfl
  cases i with
  | init | pkbits | isempty => cases hi
  | rdbit =>
    cases hi
    exact serving (readOne_clean (s := beginCommand s) hr id (by omega) ha hc)
  | rdbits c =>
    cases hi
    have hcount := toNat_le_of_rdbits_wellFormed hw
    exact (serveCommand_withCount_legal (fun k => readOne k id) s hcount).trans
      (serving (readOne_clean (s := beginCommand s) hr id hcount ha hc))
  | rdu16le =>
    cases hi
    rw [← swap16_eq_arrange (nextBits_lt _ _ _ _ (by omega))]
    exact serving (readOne_clean (s := beginCommand s) hr swap16 (by omega) ha hc)
  | rdu32le =>
    cases hi
    exact serving (readTwo_clean (s := beginCommand s) (n := 16) (k := 16) hr (by omega) (by omega)
      (fun _ _ => joinU32le_eq_arrange) ha hc)
  | rdu24be =>
    cases hi
    exact serving (readTwo_clean (s := beginCommand s) (n := 16) (k := 8) hr (by omega) (by omega)
      (fun a b _ hb => joinU24be_eq a b hb) ha hc)

/-- Settles O50: the bits a clean read takes next are the stream bits at the cursor, which it moves
on by its width. -/
theorem readsReturnTheStreamInOrder : Obligations.ReadsReturnTheStreamInOrder := by
  intro i n s hw hi hc hm hd hf ha
  refine ⟨unconsumed_eq_streamBits hc hm hd, _,
    exec_reading_clean hw hi hf hc.in_range ha (cleanFor_of_undisturbed n hd), ?_,
    consumed_answered_advance hc ha _ _ _, rfl, rfl⟩
  have hn : n ≤ s.cur.regs.rem.toNat + 32 := by have := readWidth_le hw hi; omega
  rw [← nextBits_eq_streamBits hc hm hd hn]
  rfl

end Sys2Proof.Machine
end

section
/-! PROOFS. What a step does to one engine of the system. -/

namespace Sys2Proof.Machine

@[simp] theorem popInput_inst (k : Nat) (s : State) : s.popInput.inst k = s.inst k := by
  cases k <;> rfl

theorem inst_hostWrite (a : Nat) (b : Byte) (s : State) (k : Nat) :
    (hostWrite a b s).inst k = (s.inst k).map (Instance.disturb s.addrW (s.addrW.wrap a)) := by
  cases k with
  | zero => rfl
  | succ j => exact List.getElem?_map

theorem inst_hostPublish (s : State) (k : Nat) : (hostPublish s).inst k = s.inst k := by
  cases k <;> rfl

/-- R34, R145: an engine that a step does not address keeps everything but the record of a host
write; the one it addresses is the one served or reset. -/
theorem step_inst_cases {s t : State} {k : Nat} {e e' : Instance} (h : step s = .next t)
    (he : s.inst k = some e) (he' : t.inst k = some e') :
    e' = e ∨
    (∃ tr rest u, s.inputs = .command k tr :: rest ∧ serve tr (s.popInput.swap k) = .next u ∧
      e' = u.cur) ∨
    (∃ rest, s.inputs = .reset k :: rest ∧ e' = Instance.reset) ∨
    (∃ tr rest u, s.inputs = .resetDuring k tr :: rest ∧
      serve tr (s.popInput.swap k) = .next u ∧ e' = (abandonCommand u).cur) ∨
    (∃ a b rest, s.inputs = .write a b :: rest ∧ e' = e.disturb s.addrW (s.addrW.wrap a)) := by
  have addressed {j : Nat} {u : State} (hj : s.hasInst j = true)
      (ht : t = u.swap j) (ho : u.others = (s.popInput.swap j).others) :
      j = k ∧ e' = u.cur ∨ e' = e := by
    rw [ht, inst_swap_of_others (by exact hj) ho, popInput_inst, he] at he'
    split at he'
    next hkj => exact .inl ⟨hkj.symm, (Option.some.inj he').symm⟩
    next => exact .inr (Option.some.inj he').symm
  obtain ⟨-, rfl⟩ | ⟨j, tr, rest, u, hi, hj, hu, ht⟩ | ⟨j, rest, hi, hj, ht⟩ |
    ⟨j, tr, rest, u, hi, hj, hu, ht⟩ | ⟨a, b, rest, hi, rfl⟩ | ⟨rest, hi, rfl⟩ := step_cases h
  · exact .inl (Option.some.inj (he'.symm.trans he))
  · obtain ⟨rfl, hcur⟩ | hsame := addressed hj ht (serve_serviceFrame hu).others
    · exact .inr (.inl ⟨tr, rest, u, hi, hu, hcur⟩)
    · exact .inl hsame
  · obtain ⟨rfl, hcur⟩ | hsame := addressed hj ht rfl
    · exact .inr (.inr (.inl ⟨rest, hi, hcur⟩))
    · exact .inl hsame
  · obtain ⟨rfl, hcur⟩ | hsame := addressed hj ht (serve_serviceFrame hu).others
    · exact .inr (.inr (.inr (.inl ⟨tr, rest, u, hi, hu, hcur⟩)))
    · exact .inl hsame
  · rw [inst_hostWrite, popInput_inst, he] at he'
    exact .inr (.inr (.inr (.inr ⟨a, b, rest, hi, (Option.some.inj he').symm⟩)))
  · rw [inst_hostPublish, popInput_inst, he] at he'
    exact .inl (Option.some.inj he').symm

end Sys2Proof.Machine
end

section
/-! PROOFS. 10_state.md: PTR and LEN change by loads alone, outside INIT and reset (R21). -/

namespace Sys2Proof.Machine

/-- `r'` is what at most `b` loads from the front of the buffer leave of WORD, PTR and LEN of `r`
(R21, R42): each takes two bytes, and without one WORD is kept (R22). -/
def Regs.LoadedFrom (w : Config.AddrWidth) (b : Nat) (r r' : Regs) : Prop :=
  ∃ m, m ≤ b ∧ r'.len + 2 * m = r.len ∧ (m = 0 → r'.ptr = r.ptr ∧ r'.word = r.word) ∧
    (0 < m → r'.ptr = w.wrap (r.ptr + 2 * m))

namespace Regs.LoadedFrom

variable {w : Config.AddrWidth} {b c : Nat} {r r' r'' : Regs}

/-- Writing REM or FAULTED loads nothing. -/
theorem of_same (hword : r'.word = r.word) (hptr : r'.ptr = r.ptr) (hlen : r'.len = r.len) :
    r.LoadedFrom w b r' :=
  ⟨0, Nat.zero_le b, hlen, fun _ => ⟨hptr, hword⟩, fun h => absurd h (Nat.lt_irrefl 0)⟩

theorem refl (w : Config.AddrWidth) (b : Nat) (r : Regs) : r.LoadedFrom w b r := of_same rfl rfl rfl

theorem trans (h : r.LoadedFrom w b r') (h' : r'.LoadedFrom w c r'') :
    r.LoadedFrom w (b + c) r'' := by
  obtain ⟨m, hm, hlen, hkept, hptr⟩ := h
  obtain ⟨l, hl, hlen', hkept', hptr'⟩ := h'
  refine ⟨m + l, by omega, by omega, fun h0 => ?_, fun hpos => ?_⟩
  · obtain ⟨hp, hw⟩ := hkept (by omega)
    obtain ⟨hp', hw'⟩ := hkept' (by omega)
    exact ⟨hp'.trans hp, hw'.trans hw⟩
  · rcases Nat.eq_zero_or_pos m with rfl | hm0 <;> rcases Nat.eq_zero_or_pos l with rfl | hl0
    · omega
    · rw [hptr' hl0, (hkept rfl).1, Nat.zero_add]
    · rw [(hkept' rfl).1, hptr hm0, Nat.add_zero]
    · rw [hptr' hl0, hptr hm0, w.wrap_wrap_add, Nat.mul_add, Nat.add_assoc]

theorem mono (h : r.LoadedFrom w b r') (hbc : b ≤ c) : r.LoadedFrom w c r' := by
  obtain ⟨m, hm, rest⟩ := h
  exact ⟨m, hm.trans hbc, rest⟩

end Regs.LoadedFrom

theorem loadWord_loadedFrom (s : State) (h : 2 ≤ s.cur.regs.len) :
    s.cur.regs.LoadedFrom s.addrW 1 (loadWord s).cur.regs := by
  obtain ⟨d, hd⟩ := loadWord_frame s
  rw [hd]
  exact ⟨1, Nat.le_refl 1, Nat.sub_add_cancel h, fun h1 => absurd h1 Nat.one_ne_zero, fun _ => rfl⟩

/-- R91: a ReadBits step loads one word or none. -/
theorem readBits_loadedFrom {n v : Nat} {s t : State} (h : readBits n s = some (v, t)) :
    s.cur.regs.LoadedFrom s.addrW 1 t.cur.regs := by
  obtain ⟨-, -, rfl⟩ | ⟨-, hlen, -, rfl⟩ := readBits_cases h
  · exact .of_same rfl rfl rfl
  · exact (loadWord_loadedFrom s hlen).trans (c := 0) (.of_same rfl rfl rfl)

theorem readOne_loadedFrom (n : Nat) (f : Nat → Nat) (s : State) :
    s.cur.regs.LoadedFrom s.addrW 1 (readOne n f s).cur.regs := by
  unfold readOne
  split
  next => exact .refl _ _ _
  next h =>
    rw [respond_regs]
    exact readBits_loadedFrom h

theorem readTwo_loadedFrom (n k : Nat) (f : Nat → Nat → Nat) (s : State) :
    s.cur.regs.LoadedFrom s.addrW 2 (readTwo n k f s).cur.regs := by
  cases h : readBits n s with
  | none =>
    rw [readTwo_of_none k f h]
    exact .refl _ _ _
  | some vt =>
    obtain ⟨v, t⟩ := vt
    rw [readTwo_of_some k f h]
    have hsecond := readOne_loadedFrom k (f v) t
    rw [(readBits_serviceFrame h).addrW] at hsecond
    exact (readBits_loadedFrom h).trans hsecond

theorem withCount_loadedFrom {rule : Nat → State → State} {b : Nat} {s : State}
    (hrule : ∀ n, s.cur.regs.LoadedFrom s.addrW b (rule n s).cur.regs) (c : Count) :
    s.cur.regs.LoadedFrom s.addrW b (withCount c rule s).cur.regs := by
  unfold withCount
  split
  · exact hrule _
  · exact .of_same rfl rfl rfl

theorem serveCommand_loadedFrom {rule : State → State} {b : Nat} {s t : State}
    (hrule : (beginCommand s).cur.regs.LoadedFrom s.addrW b (rule (beginCommand s)).cur.regs)
    (h : serveCommand rule s = .next t) : s.cur.regs.LoadedFrom s.addrW b t.cur.regs := by
  obtain ⟨-, rfl⟩ | ⟨-, rfl⟩ := serveCommand_cases h
  · exact .refl _ _ _
  · exact hrule

/-- R21: no command but INIT takes anything but whole words from the front, and none more than two. -/
theorem exec_loadedFrom {i : Instr} {s t : State} (hi : ∀ base blen, i ≠ .init base blen)
    (h : exec i s = .next t) : s.cur.regs.LoadedFrom s.addrW 2 t.cur.regs := by
  cases i with
  | init base blen => exact absurd rfl (hi base blen)
  | rdbit =>
    exact (serveCommand_loadedFrom (readOne_loadedFrom 1 id _) h).mono (by decide)
  | rdbits c =>
    exact (serveCommand_loadedFrom (withCount_loadedFrom (readOne_loadedFrom · id _) c) h).mono
      (by decide)
  | pkbits c =>
    refine serveCommand_loadedFrom (withCount_loadedFrom (fun n => ?_) c) h
    rw [peekRule_regs]
    exact .refl _ _ _
  | rdu16le =>
    exact (serveCommand_loadedFrom (readOne_loadedFrom 16 swap16 _) h).mono (by decide)
  | rdu32le => exact serveCommand_loadedFrom (readTwo_loadedFrom 16 16 joinU32le _) h
  | rdu24be => exact serveCommand_loadedFrom (readTwo_loadedFrom 16 8 joinU24be _) h
  | isempty => exact serveCommand_loadedFrom (.refl _ _ _) h

/-- R80, R136: INIT sets PTR and LEN to its operands, or a FAULTED engine turns it away. -/
theorem execInit_view {base blen : Nat} {s t : State} (h : exec (.init base blen) s = .next t) :
    t.cur.regs = s.cur.regs ∨
      t.cur.regs.ptr = s.addrW.wrap base ∧ t.cur.regs.len = s.addrW.wrap blen := by
  obtain ⟨-, rfl⟩ | ⟨-, rfl⟩ := serveCommand_cases (rule := initRule base blen) h
  · exact .inl rfl
  · exact .inr ⟨rfl, rfl⟩

/-- R21: what serving any command word does to WORD, PTR and LEN. -/
theorem serve_view {tr : Transaction} {s t : State} (h : serve tr s = .next t) :
    s.cur.regs.LoadedFrom s.addrW 2 t.cur.regs ∨
    (∃ base blen, decode tr = .ok (.init base blen) ∧
      t.cur.regs.ptr = s.addrW.wrap base ∧ t.cur.regs.len = s.addrW.wrap blen) := by
  cases hd : decode tr with
  | error c =>
    rw [serve_error hd] at h
    exact .inl (serveCommand_loadedFrom (.of_same rfl rfl rfl) h)
  | ok i =>
    rw [serve_ok hd] at h
    by_cases hi : ∃ base blen, i = .init base blen
    · obtain ⟨base, blen, rfl⟩ := hi
      obtain hsame | hview := execInit_view h
      · exact .inl (hsame ▸ .refl _ _ _)
      · exact .inr ⟨base, blen, rfl, hview⟩
    · exact .inl (exec_loadedFrom (fun base blen hb => hi ⟨base, blen, hb⟩) h)

/-- Settles O34: only a command to the engine loads or starts a session, and only its own reset
gives it the reset registers. -/
theorem viewShrinksOnlyFromTheFront : Obligations.ViewShrinksOnlyFromTheFront := by
  intro s u k e e' h he he'
  obtain rfl | ⟨tr, rest, v, hin, hv, rfl⟩ | ⟨rest, hin, rfl⟩ | ⟨tr, rest, v, hin, -, rfl⟩ |
    ⟨a, b, rest, -, rfl⟩ := step_inst_cases h he he'
  · exact .inl (Regs.LoadedFrom.refl s.addrW 2 _)
  · have hcur : (s.popInput.swap k).cur = e := swap_cur ((popInput_inst k s).trans he)
    have hview := serve_view hv
    rw [hcur, swap_addrW, popInput_addrW] at hview
    obtain hload | ⟨base, blen, hd, hptr, hlen⟩ := hview
    · exact .inl hload
    · exact .inr (.inl ⟨tr, rest, base, blen, hin, hd, fun hb => hptr.trans (s.addrW.wrap_of_lt hb),
        fun hb => hlen.trans (s.addrW.wrap_of_lt hb)⟩)
  · exact .inr (.inr ⟨.inl ⟨rest, hin⟩, rfl⟩)
  · exact .inr (.inr ⟨.inr ⟨tr, rest, hin⟩, rfl⟩)
  · exact .inl (Regs.LoadedFrom.refl s.addrW 2 _)

end Sys2Proof.Machine
end

section
/-! PROOFS. 10_state.md: WORD cannot be observed while REM = 0 (R26). -/

namespace Sys2Proof.Machine

/-- `s` with another WORD in the engine in service. -/
def State.withWord (w : Word) (s : State) : State := setRegs { s.cur.regs with word := w } s

section withWord
variable (w : Word) (s : State)
@[simp] theorem withWord_rem : (s.withWord w).cur.regs.rem = s.cur.regs.rem := rfl
@[simp] theorem withWord_ptr : (s.withWord w).cur.regs.ptr = s.cur.regs.ptr := rfl
@[simp] theorem withWord_len : (s.withWord w).cur.regs.len = s.cur.regs.len := rfl
end withWord

/-- `t'` is `t`, or differs from it in a WORD of which no bit is left (R26). -/
def SameButSpentWord (w : Word) (t t' : State) : Prop :=
  t' = t ∨ t.cur.regs.rem = 0 ∧ t' = t.withWord w

/-- A rule that takes states no different but for a spent WORD to such states. -/
def IgnoresSpentWord (w : Word) (rule : State → State) : Prop :=
  ∀ s s', SameButSpentWord w s s' → SameButSpentWord w (rule s) (rule s')

namespace SameButSpentWord

variable {w : Word} {t t' : State}

/-- The command's response is the same. -/
theorem response_eq (h : SameButSpentWord w t t') : t'.cur.response = t.cur.response := by
  obtain rfl | ⟨-, rfl⟩ := h <;> rfl

/-- The bytes the command read are the same. -/
theorem reads_eq (h : SameButSpentWord w t t') : t'.cur.reads = t.cur.reads := by
  obtain rfl | ⟨-, rfl⟩ := h <;> rfl

end SameButSpentWord

section
variable {w : Word}

/-- Only a state with a spent WORD has another state no different from it. -/
theorem ignoresSpentWord_iff {rule : State → State} : IgnoresSpentWord w rule ↔
    ∀ s, s.cur.regs.rem = 0 → SameButSpentWord w (rule s) (rule (s.withWord w)) := by
  constructor
  · exact fun h s hs => h s _ (.inr ⟨hs, rfl⟩)
  · rintro h s s' (rfl | ⟨hs, rfl⟩)
    · exact .inl rfl
    · exact h s hs

theorem respond_ignoresSpentWord (st : Status) (v : Nat) : IgnoresSpentWord w (respond st v) :=
  ignoresSpentWord_iff.mpr fun _ hs => .inr ⟨hs, rfl⟩

theorem faultEntry_ignoresSpentWord : IgnoresSpentWord w faultEntry :=
  ignoresSpentWord_iff.mpr fun _ hs => .inr ⟨hs, rfl⟩

/-- INIT writes WORD (R80). -/
theorem initRule_ignoresSpentWord (base blen : Nat) : IgnoresSpentWord w (initRule base blen) :=
  ignoresSpentWord_iff.mpr fun _ _ => .inl rfl

/-- Extract takes nothing from a spent word (R90). -/
theorem extract_spent (word word' next : Word) (n : Nat) :
    extract word 0 next n = extract word' 0 next n := by
  unfold extract
  split
  next hn => rw [Nat.le_zero.mp hn, field_width_zero, field_width_zero]
  next => rw [field_width_zero, field_width_zero]

/-- IS_EMPTY finds no bit set in a spent word (R120). -/
theorem empty_spent {r : Regs} (hr : r.rem = 0) (w : Word) :
    ({ r with word := w } : Regs).empty = r.empty := by
  simp [Regs.empty, Regs.padZero, Regs.noWords, hr]

theorem isEmptyRule_ignoresSpentWord : IgnoresSpentWord w isEmptyRule := by
  refine ignoresSpentWord_iff.mpr fun s hs => .inr ⟨hs, ?_⟩
  rw [isEmptyRule, State.withWord, setRegs_regs, empty_spent hs]
  rfl

/-! The memory port does not see WORD (R41). -/

theorem memRead_withWord (a : Nat) (s : State) :
    memRead a (s.withWord w) = ((memRead a s).1, (memRead a s).2.withWord w) := by
  by_cases h : s.addrW.wrap a ∈ s.cur.session.disturbed
  · rw [memRead_disturbed a s h, memRead_disturbed a (s.withWord w) h]
    rfl
  · rw [memRead_clean a s h, memRead_clean a (s.withWord w) h]
    rfl

theorem readWord_withWord (a : Nat) (s : State) :
    readWord a (s.withWord w) = ((readWord a s).1, (readWord a s).2.withWord w) := by
  simp only [readWord, memRead_withWord]

theorem peekWord_withWord (s : State) :
    peekWord (s.withWord w) = ((peekWord s).1, (peekWord s).2.withWord w) := by
  unfold peekWord
  simp only [withWord_len, withWord_ptr, memRead_withWord, readWord_withWord]
  split <;> rfl

/-- A load overwrites WORD (R42). -/
theorem loadWord_withWord (s : State) : loadWord (s.withWord w) = loadWord s := by
  simp only [loadWord, readWord_withWord, withWord_ptr]
  rfl

/-- R91: a ReadBits step on a spent WORD underflows whatever WORD holds, or returns the same value. -/
theorem readBits_withWord (n : Nat) {s : State} (hs : s.cur.regs.rem = 0) :
    (readBits n s = none ∧ readBits n (s.withWord w) = none) ∨
    ∃ v t t', readBits n s = some (v, t) ∧ readBits n (s.withWord w) = some (v, t') ∧
      SameButSpentWord w t t' := by
  have hrem : s.cur.regs.rem.toNat = 0 := by rw [hs]; rfl
  rcases Nat.eq_zero_or_pos n with rfl | hn
  · refine .inr ⟨_, _, (setRem 0 s).withWord w, readBits_within 0 s (Nat.zero_le _), ?_, ?_⟩
    · rw [readBits_within 0 _ (Nat.zero_le _), withWord_rem, hrem, extract_spent _ s.cur.regs.word]
      rfl
    · rw [hrem]
      exact .inr ⟨rfl, rfl⟩
  · by_cases hlen : s.cur.regs.len < 2
    · exact .inl ⟨readBits_underflow n s (by omega) hlen,
        readBits_underflow n (s.withWord w) (by rwa [withWord_rem, hrem]) hlen⟩
    · refine .inr ⟨_, _, _, readBits_crossing n s (by omega) (not_lt.mp hlen), ?_, .inl rfl⟩
      rw [readBits_crossing n (s.withWord w) (by rwa [withWord_rem, hrem]) (not_lt.mp hlen),
        withWord_rem, hrem, loadWord_withWord, extract_spent _ s.cur.regs.word]

theorem readOne_ignoresSpentWord (n : Nat) (f : Nat → Nat) :
    IgnoresSpentWord w (readOne n f) := by
  refine ignoresSpentWord_iff.mpr fun s hs => ?_
  obtain ⟨hnone, hnone'⟩ | ⟨v, t, t', hsome, hsome', hsame⟩ := readBits_withWord (w := w) n hs
  · simp only [readOne, hnone, hnone']
    exact respond_ignoresSpentWord _ _ _ _ (.inr ⟨hs, rfl⟩)
  · simp only [readOne, hsome, hsome']
    exact respond_ignoresSpentWord _ _ _ _ hsame

theorem readTwo_ignoresSpentWord (n k : Nat) (f : Nat → Nat → Nat) :
    IgnoresSpentWord w (readTwo n k f) := by
  refine ignoresSpentWord_iff.mpr fun s hs => ?_
  obtain ⟨hnone, hnone'⟩ | ⟨v, t, t', hsome, hsome', hsame⟩ := readBits_withWord (w := w) n hs
  · rw [readTwo_of_none k f hnone, readTwo_of_none k f hnone']
    exact respond_ignoresSpentWord _ _ _ _ (.inr ⟨hs, rfl⟩)
  · rw [readTwo_of_some k f hsome, readTwo_of_some k f hsome']
    exact readOne_ignoresSpentWord k (f v) _ _ hsame

/-- R94: a peek at a spent WORD finds the bits of the next one. -/
theorem peekBits_withWord (n : Nat) {s : State} (hs : s.cur.regs.rem = 0) :
    peekBits n (s.withWord w) = ((peekBits n s).1, (peekBits n s).2.withWord w) := by
  have hrem : s.cur.regs.rem.toNat = 0 := by rw [hs]; rfl
  simp only [peekBits, peekWord_withWord, withWord_rem, hrem,
    extract_spent (s.withWord w).cur.regs.word s.cur.regs.word]
  split <;> rfl

theorem peekRule_ignoresSpentWord (n : Nat) : IgnoresSpentWord w (peekRule n) := by
  refine ignoresSpentWord_iff.mpr fun s hs => .inr ⟨?_, ?_⟩
  · rw [peekRule_regs, hs]
  · simp only [peekRule, peekBits_withWord n hs]
    rfl

theorem withCount_ignoresSpentWord {rule : Nat → State → State}
    (hrule : ∀ n, IgnoresSpentWord w (rule n)) (c : Count) :
    IgnoresSpentWord w (withCount c rule) := by
  intro s s' hsame
  unfold withCount
  split
  · exact hrule _ s s' hsame
  · exact faultEntry_ignoresSpentWord s s' hsame

/-- Serving a command sees no spent WORD its rule does not see: FAULTED is another register. -/
theorem serveCommand_withWord {rule : State → State} (hrule : IgnoresSpentWord w rule)
    {s t : State} (hs : s.cur.regs.rem = 0) (h : serveCommand rule s = .next t) :
    ∃ t', serveCommand rule (s.withWord w) = .next t' ∧ SameButSpentWord w t t' := by
  obtain ⟨hf, rfl⟩ | ⟨hf, rfl⟩ := serveCommand_cases h
  · exact ⟨_, serveCommand_faulted rule (s.withWord w) hf, .inr ⟨hs, rfl⟩⟩
  · exact ⟨_, serveCommand_serving rule (s.withWord w) hf,
      hrule (beginCommand s) _ (.inr ⟨hs, rfl⟩)⟩

/-- R26 for every command: the state with another spent WORD leads to the same state, or to one that
differs in a WORD still spent. -/
theorem exec_withWord {i : Instr} {s t : State} (hs : s.cur.regs.rem = 0)
    (h : exec i s = .next t) :
    ∃ t', exec i (s.withWord w) = .next t' ∧ SameButSpentWord w t t' := by
  cases i with
  | init base blen => exact serveCommand_withWord (initRule_ignoresSpentWord base blen) hs h
  | rdbit => exact serveCommand_withWord (readOne_ignoresSpentWord 1 id) hs h
  | rdbits c =>
    exact serveCommand_withWord
      (withCount_ignoresSpentWord (readOne_ignoresSpentWord · id) c) hs h
  | pkbits c =>
    exact serveCommand_withWord (withCount_ignoresSpentWord peekRule_ignoresSpentWord c) hs h
  | rdu16le => exact serveCommand_withWord (readOne_ignoresSpentWord 16 swap16) hs h
  | rdu32le => exact serveCommand_withWord (readTwo_ignoresSpentWord 16 16 joinU32le) hs h
  | rdu24be => exact serveCommand_withWord (readTwo_ignoresSpentWord 16 8 joinU24be) hs h
  | isempty => exact serveCommand_withWord isEmptyRule_ignoresSpentWord hs h

end

/-- Settles O35: states that differ only in a spent WORD answer alike and stay so, and such states
hold the same response and the same reads. -/
theorem wordIsUnobservableWhenExhausted : Obligations.WordIsUnobservableWhenExhausted := by
  intro i s t w hs h
  obtain ⟨t', ht', hsame⟩ := exec_withWord (w := w) hs h
  exact ⟨t', ht', hsame.response_eq, hsame.reads_eq, hsame⟩

end Sys2Proof.Machine
end

section
/-! PROOFS. What the decoder accepts (R63 to R69), and when it looks at the side operands (R68). -/

namespace Sys2Proof

/-- R63, R64: the opcode map selects a command for OPC 0x1 to 0x8 and for no other. -/
theorem exists_selectCommand_iff (opc : BitVec 4) (cnt : Count) (base blen : Nat) :
    (∃ i, selectCommand opc cnt base blen = some i) ↔ 1 ≤ opc.toNat ∧ opc.toNat ≤ 8 := by
  unfold selectCommand
  split
  -- the last case is a reserved OPC: each match before it excludes one value
  case h_9 => grind
  all_goals simp [*]

/-- R68: the opcode map passes BASE and BLEN to INIT alone. -/
theorem selectCommand_side_operands {opc : BitVec 4} (h : opc.toNat ≠ 1) (cnt : Count)
    (base blen base' blen' : Nat) :
    selectCommand opc cnt base blen = selectCommand opc cnt base' blen' := by
  unfold selectCommand
  split
  case h_1 hinit => exact absurd hinit h
  all_goals rfl

theorem usesCount_iff (opc : BitVec 4) : usesCount opc = true ↔ opc.toNat = 3 ∨ opc.toNat = 4 := by
  simp [usesCount, BitVec.toNat_eq]

end Sys2Proof

namespace Sys2Proof.Machine

/-- R69: the words that select a command are the legal ones; BASE and BLEN have no say in it. -/
theorem exists_decode_ok_iff (t : Transaction) : (∃ i, decode t = .ok i) ↔ LegalWord t.cmd := by
  have hcnt : t.cnt = 0 ↔ t.cnt.toNat = 0 := BitVec.toNat_eq
  have hrsv : t.rsv = 0 ↔ t.rsv.toNat = 0 := BitVec.toNat_eq
  simp only [decode_ok_iff, exists_and_right, exists_selectCommand_iff, ← Bool.not_eq_true,
    usesCount_iff, hcnt, hrsv, opc_toNat, cnt_toNat, rsv_toNat, LegalWord]
  tauto

theorem exists_decode_error_of_not_legalWord {t : Transaction} (h : ¬ LegalWord t.cmd) :
    ∃ c, decode t = .error c := by
  cases hd : decode t with
  | ok i => exact absurd ((exists_decode_ok_iff t).mp ⟨i, hd⟩) h
  | error c => exact ⟨c, rfl⟩

/-- R68: transactions with one CMD, not INIT's, decode alike, to the same command or error. -/
theorem decode_eq_of_cmd_eq {t t' : Transaction} (hcmd : t.cmd = t'.cmd)
    (hopc : t.cmd.toNat % 16 ≠ 1) : decode t = decode t' := by
  rw [← opc_toNat] at hopc
  have hopc' : t'.opc = t.opc := by rw [Transaction.opc, ← hcmd, Transaction.opc]
  have hcnt : t'.cnt = t.cnt := by rw [Transaction.cnt, ← hcmd, Transaction.cnt]
  have hrsv : t'.rsv = t.rsv := by rw [Transaction.rsv, ← hcmd, Transaction.rsv]
  rw [decode, decode, hopc', hcnt, hrsv,
    selectCommand_side_operands hopc t.cnt t.base t.blen t'.base t'.blen]

end Sys2Proof.Machine
end

section
/-! PROOFS. 30_encoding.md: the side operands (R68). -/

namespace Sys2Proof.Machine

/-- Settles O6: legality is a property of CMD alone, and a command that is not INIT decodes the same
whatever stands beside it. -/
theorem sideOperandsMatterOnlyToInit : Obligations.SideOperandsMatterOnlyToInit := by
  intro t t' hcmd
  refine ⟨?_, fun hopc s => ?_⟩
  · rw [exists_decode_ok_iff, exists_decode_ok_iff, hcmd]
  · rw [serve, serve, decode_eq_of_cmd_eq hcmd hopc]

end Sys2Proof.Machine
end

section
/-! PROOFS. A step that serves a command, and one whose command word is illegal (R64 to R67, R135). -/

namespace Sys2Proof.Machine

theorem hasInst_of_inst {k : Nat} {s : State} {e : Instance} (h : s.inst k = some e) :
    s.hasInst k = true := by
  cases k with
  | zero => rfl
  | succ j =>
    obtain ⟨hj, -⟩ := List.getElem?_eq_some_iff.mp h
    exact decide_eq_true hj

/-- R60: a command to an instance of the system is served there, and the instance put back. -/
theorem step_command {s : State} {k : Nat} {t : Transaction} {rest : List HostEvent}
    (hin : s.inputs = .command k t :: rest) (hk : s.hasInst k = true) :
    step s = mapNext (State.swap k) (serve t (s.popInput.swap k)) := by
  rw [step_event hin]
  exact if_pos hk

/-- R135: what the fault entry leaves of the instance that took it. -/
theorem faultEntry_beginCommand_cur (s : State) :
    (faultEntry (beginCommand s)).cur =
      s.cur.answered { s.cur.regs with faulted := true } .fault 0 [] := rfl

/-- R64 to R67: an illegal word to an engine that is not FAULTED takes the fault entry. -/
theorem serve_illegalWord {t : Transaction} {s : State} (hillegal : ¬ LegalWord t.cmd)
    (hf : s.cur.regs.faulted = false) : serve t s = .next (faultEntry (beginCommand s)) := by
  obtain ⟨c, hc⟩ := exists_decode_error_of_not_legalWord hillegal
  rw [serve_error hc, serveIllegal, serveCommand_serving _ s hf]

/-- The step that serves an illegal word is the fault entry of the addressed engine, put back in its
place. -/
theorem step_illegalWord {s : State} {k : Nat} {t : Transaction} {rest : List HostEvent}
    {e : Instance} (hin : s.inputs = .command k t :: rest) (he : s.inst k = some e)
    (hf : e.regs.faulted = false) (hillegal : ¬ LegalWord t.cmd) :
    step s = .next ((faultEntry (beginCommand (s.popInput.swap k))).swap k) := by
  have hcur : (s.popInput.swap k).cur = e := swap_cur ((popInput_inst k s).trans he)
  rw [step_command hin (hasInst_of_inst he), serve_illegalWord hillegal (by rw [hcur, hf]), mapNext]

/-- Settles O9: the addressed instance is the one that took the fault entry, and the fault entry
touches no other part of the system. -/
theorem illegalWordTakesTheFaultEntry : Obligations.IllegalWordTakesTheFaultEntry := by
  intro s k t rest e hin he hf hillegal
  have hcur : (s.popInput.swap k).cur = e := swap_cur ((popInput_inst k s).trans he)
  have hinst := inst_swap_of_others (s := s.popInput) (hasInst_of_inst he)
    (faultEntry_serviceFrame (beginCommand (s.popInput.swap k))).others
  have hmem : ((faultEntry (beginCommand (s.popInput.swap k))).swap k).mem = s.mem := by
    simp [faultEntry]
  refine ⟨_, step_illegalWord hin he hf hillegal, ?_, fun j hj => ?_, fun a => by rw [hmem], hmem,
    ?_, ?_, ?_⟩
  · rw [hinst, if_pos rfl, faultEntry_beginCommand_cur, hcur]
  · rw [hinst, if_neg hj, popInput_inst]
  · simp [faultEntry]
  · simp [faultEntry]
  · simp [faultEntry, hin]

end Sys2Proof.Machine
end

section
/-! PROOFS. 40_construction.md: INIT (R80, R83), and the answer of a FAULTED engine (R136). -/

namespace Sys2Proof.Machine

/-- R72: INIT's word, with the side operands as given. -/
theorem encode_init (base blen : Nat) : encode (.init base blen) = ⟨0x00000001, base, blen⟩ := rfl

/-- Broken duties are noted in a session and leave its range alone. -/
theorem exists_foldl_disturb_eq (w : Config.AddrWidth) (ps : List (Nat × Byte)) (ses : Session) :
    ∃ d, ps.foldl (fun ses p => ses.disturb w p.1) ses = ⟨ses.base, ses.len, d⟩ := by
  induction ps generalizing ses with
  | nil => exact ⟨ses.disturbed, rfl⟩
  | cons p ps ih =>
    obtain ⟨d, hd⟩ := ih (ses.disturb w p.1)
    rw [disturb_base, disturb_len] at hd
    exact ⟨d, hd⟩

/-- R83: a session that starts is over the range it was given, whatever writes are not yet visible. -/
theorem exists_sessionStart_eq (w : Config.AddrWidth) (base blen : Nat)
    (pending : List (Nat × Byte)) : ∃ d, Session.start w base blen pending = ⟨base, blen, d⟩ :=
  exists_foldl_disturb_eq w pending ⟨base, blen, []⟩

/-- R136: a FAULTED engine answers FAULT, reads nothing and keeps its registers. -/
theorem answerFaulted_beginCommand (s : State) :
    answerFaulted (beginCommand s) = s.answers s.cur.regs .fault 0 [] s.draws := rfl

/-- R80: INIT on an engine that is not FAULTED, for operands of any width (log 12). -/
theorem exec_init_serving (base blen : Nat) {s : State} (hf : s.cur.regs.faulted = false) :
    exec (.init base blen) s = .next { s with cur := {
      regs     := ⟨0x0000, 0, s.addrW.wrap base, s.addrW.wrap blen, false⟩
      session  := Session.start s.addrW (s.addrW.wrap base) (s.addrW.wrap blen) s.pending
      response := some ⟨.ok, 0⟩
      reads    := [] } } := by
  rw [← hf]
  exact serveCommand_serving (initRule base blen) s hf

/-- Settles O13: the operands fit the port as they are, and the writes not yet visible move neither
end of the session's range. -/
theorem initStartsASession : Obligations.InitStartsASession := by
  intro s base blen
  refine ⟨encode_init base blen, fun hf hbase hblen => ?_, fun hf => ?_⟩
  · obtain ⟨d, hd⟩ := exists_sessionStart_eq s.addrW base blen s.pending
    refine ⟨d, ?_⟩
    rw [exec_init_serving base blen hf, s.addrW.wrap_of_lt hbase, s.addrW.wrap_of_lt hblen, hd]
  · rw [← answerFaulted_beginCommand]
    exact serveCommand_faulted (initRule base blen) s hf

end Sys2Proof.Machine
end

section
/-! PROOFS. The shared operations of 41_bit_extraction.md in closed form: Extract as division and
remainder (R90), the memory port, ReadBits (R91) and the peek (R94), as states that answer. -/

namespace Sys2Proof

/-- R61, R72: a command word is its opcode, or-ed with the count in place. -/
theorem commandWord_eq_or (cnt : Count) (opc : BitVec 4) :
    commandWord cnt opc = opc.setWidth 32 ||| (cnt.setWidth 32 <<< 4) := by
  have hopc := opc.isLt
  have hcnt := cnt.isLt
  apply BitVec.eq_of_toNat_eq
  rw [commandWord_toNat, BitVec.toNat_or, BitVec.toNat_shiftLeft, BitVec.toNat_setWidth,
    BitVec.toNat_setWidth, Nat.or_comm, Nat.mod_eq_of_lt (by omega : opc.toNat < 2 ^ 32),
    Nat.mod_eq_of_lt (by omega : cnt.toNat < 2 ^ 32), Nat.shiftLeft_eq,
    Nat.mod_eq_of_lt (by omega), ← Nat.shiftLeft_eq, Machine.shiftLeft_or _ _ 4 hopc]
  rfl

end Sys2Proof

namespace Sys2Proof.Machine

/-! ### Extract -/

theorem extract_of_le {rem n : Nat} (h : n ≤ rem) (word next : Word) :
    extract word rem next n = word.toNat / 2 ^ (rem - n) % 2 ^ n := by
  rw [extract, if_pos h, field_eq]

theorem extract_of_lt {rem n : Nat} (h : rem < n) (hn : n ≤ 16) (word next : Word) :
    extract word rem next n
      = word.toNat % 2 ^ rem * 2 ^ (n - rem) + next.toNat / 2 ^ (16 - (n - rem)) := by
  have hnext : next.toNat / 2 ^ (16 - (n - rem)) < 2 ^ (n - rem) := by
    apply Nat.div_lt_of_lt_mul
    rw [← Nat.pow_add, Nat.sub_add_cancel (by omega)]
    exact next.isLt
  rw [extract, if_neg (Nat.not_le.mpr h), shiftLeft_or _ _ _ (field_lt _ _ _), field_eq, field_eq,
    Nat.pow_zero, Nat.div_one, Nat.mod_eq_of_lt hnext]

/-! ### The memory port -/

section
variable {a : Nat} {s s0 s1 : State} {b0 b1 : Byte}

/-- What a read leaves, in terms of the draws it took. -/
theorem state_of_memRead (h : memRead a s = (b0, s0)) :
    s0 = { s with
      cur   := { s.cur with reads := s.cur.reads ++ [s.addrW.wrap a] }
      draws := s0.draws } := by
  obtain ⟨d, hd⟩ := memRead_frame a s
  rw [h] at hd
  subst hd
  rfl

/-- R42, R43: the two bytes of a word as the port gives them. -/
theorem readWord_of_memRead (h0 : memRead a s = (b0, s0)) (h1 : memRead (a + 1) s0 = (b1, s1)) :
    readWord a s = (b1 ++ b0, { s with
      cur   := { s.cur with
        reads := s.cur.reads ++ [s.addrW.wrap a, s.addrW.wrap (a + 1)] }
      draws := s1.draws }) := by
  have hword : readWord a s = (b1 ++ b0, s1) := by simp only [readWord, h0, h1, joinBytes]
  obtain ⟨d, hd⟩ := readWord_frame a s
  rw [hword] at hd ⊢
  subst hd
  rfl

end

/-- R42: the word a load leaves in WORD is the one at PTR. -/
theorem loadWord_word (s : State) :
    (loadWord s).cur.regs.word = (readWord s.cur.regs.ptr s).1 := rfl

/-! ### Responses -/

/-- R136: a FAULTED engine turns every command away. -/
theorem serveCommand_answers_fault (rule : State → State) {s : State}
    (hf : s.cur.regs.faulted = true) :
    serveCommand rule s = .next (s.answers s.cur.regs .fault 0 [] s.draws) :=
  serveCommand_faulted rule s hf

/-- R67: a count above 16 takes the fault entry. -/
theorem serveCommand_withCount_illegal {c : Count} (rule : Nat → State → State) {s : State}
    (hf : s.cur.regs.faulted = false) (hc : 16 < c.toNat) :
    serveCommand (withCount c rule) s
      = .next (s.answers { s.cur.regs with faulted := true } .fault 0 [] s.draws) := by
  rw [serveCommand_serving _ s hf, withCount_illegal c rule _ hc]
  rfl

/-! ### A command of one ReadBits step -/

section
variable {n : Nat} {s : State} (f : Nat → Nat)

/-- R91, R98: a read that REM can serve. -/
theorem readOne_within (h : n ≤ s.cur.regs.rem.toNat) :
    readOne n f (beginCommand s)
      = s.answers { s.cur.regs with rem := BitVec.ofNat 5 (s.cur.regs.rem.toNat - n) } .ok
        (f (s.cur.regs.word.toNat / 2 ^ (s.cur.regs.rem.toNat - n) % 2 ^ n)) [] s.draws := by
  rw [readOne, readBits_within n (beginCommand s) h, beginCommand_regs, extract_of_le h]
  rfl

/-- R91, R131: a read that needs a word which is not there. -/
theorem readOne_underflow (h : s.cur.regs.rem.toNat < n) (hl : s.cur.regs.len < 2) :
    readOne n f (beginCommand s) = s.answers s.cur.regs .underflow 0 [] s.draws := by
  rw [readOne, readBits_underflow n (beginCommand s) h hl]
  rfl

/-- R91: a read that loads a word, the two bytes as the port gives them. -/
theorem readOne_crossing (h : s.cur.regs.rem.toNat < n) (hn : n ≤ 16) (hl : 2 ≤ s.cur.regs.len)
    {b0 b1 : Byte} {s0 s1 : State}
    (h0 : memRead s.cur.regs.ptr (beginCommand s) = (b0, s0))
    (h1 : memRead (s.cur.regs.ptr + 1) s0 = (b1, s1)) :
    readOne n f (beginCommand s) = s.answers
      { word    := b1 ++ b0
        rem     := BitVec.ofNat 5 (16 - (n - s.cur.regs.rem.toNat))
        ptr     := s.addrW.wrap (s.cur.regs.ptr + 2)
        len     := s.cur.regs.len - 2
        faulted := s.cur.regs.faulted } .ok
      (f (s.cur.regs.word.toNat % 2 ^ s.cur.regs.rem.toNat * 2 ^ (n - s.cur.regs.rem.toNat)
        + (b1 ++ b0).toNat / 2 ^ (16 - (n - s.cur.regs.rem.toNat))))
      [s.addrW.wrap s.cur.regs.ptr, s.addrW.wrap (s.cur.regs.ptr + 1)] s1.draws := by
  have hword := readWord_of_memRead h0 h1
  rw [readOne, readBits_crossing n (beginCommand s) h hl, beginCommand_regs, extract_of_lt h hn,
    loadWord, beginCommand_regs, hword]
  rfl

end

/-! ### The peek -/

section
variable {n : Nat} {s : State}

theorem peekBits_within (h : n ≤ s.cur.regs.rem.toNat) :
    peekBits n s = (extract s.cur.regs.word s.cur.regs.rem.toNat 0 n, s) :=
  if_pos h

theorem peekBits_beyond (h : s.cur.regs.rem.toNat < n) :
    peekBits n s
      = (extract s.cur.regs.word s.cur.regs.rem.toNat (peekWord s).1 n, (peekWord s).2) :=
  if_neg (Nat.not_le.mpr h)

theorem peekWord_of_len_zero (h : s.cur.regs.len = 0) : peekWord s = (0, s) := by
  simp only [peekWord, h]

theorem peekWord_of_len_one (h : s.cur.regs.len = 1) :
    peekWord s = (joinBytes 0 (memRead s.cur.regs.ptr s).1, (memRead s.cur.regs.ptr s).2) := by
  simp only [peekWord, h]

theorem peekWord_of_two_le_len (h : 2 ≤ s.cur.regs.len) :
    peekWord s = readWord s.cur.regs.ptr s := by
  obtain ⟨k, hk⟩ := Nat.exists_eq_add_of_le' h
  simp only [peekWord, hk]

/-- R94: a peek within REM reads nothing. -/
theorem peekRule_within (h : n ≤ s.cur.regs.rem.toNat) :
    peekRule n (beginCommand s) = s.answers s.cur.regs .ok
      (s.cur.regs.word.toNat / 2 ^ (s.cur.regs.rem.toNat - n) % 2 ^ n) [] s.draws := by
  rw [peekRule, peekBits_within (s := beginCommand s) h, extract_of_le (by exact h)]
  rfl

/-- R94, R100: a peek beyond REM answers the bits of the word `next` that `peekWord` makes of the
bytes `reads`. -/
theorem peekRule_beyond {next : Word} {reads : List Nat} {d : Nat} (h : s.cur.regs.rem.toNat < n)
    (hn : n ≤ 16) (hnext : peekWord (beginCommand s) = (next, { s with
      cur := { s.cur with response := none, reads := reads }, draws := d })) :
    peekRule n (beginCommand s) = s.answers s.cur.regs .ok
      (s.cur.regs.word.toNat % 2 ^ s.cur.regs.rem.toNat * 2 ^ (n - s.cur.regs.rem.toNat)
        + next.toNat / 2 ^ (16 - (n - s.cur.regs.rem.toNat))) reads d := by
  rw [peekRule, peekBits_beyond (s := beginCommand s) h, extract_of_lt (by exact h) hn, hnext]
  rfl

end

/-! ### Serving a count -/

/-- R92: READ_BITS of a legal count on an engine that is not FAULTED. -/
theorem exec_rdbits_serving {c : Count} {s : State} (hf : s.cur.regs.faulted = false)
    (hc : c.toNat ≤ 16) : exec (.rdbits c) s = .next (readOne c.toNat id (beginCommand s)) :=
  (serveCommand_withCount_legal _ s hc).trans (serveCommand_serving _ s hf)

/-- R94: PEEK_BITS of a legal count on an engine that is not FAULTED. -/
theorem exec_pkbits_serving {c : Count} {s : State} (hf : s.cur.regs.faulted = false)
    (hc : c.toNat ≤ 16) : exec (.pkbits c) s = .next (peekRule c.toNat (beginCommand s)) :=
  (serveCommand_withCount_legal _ s hc).trans (serveCommand_serving _ s hf)

end Sys2Proof.Machine
end

section
/-! PROOFS. 41_bit_extraction.md: READ_BITS (R92) and READ_BIT (R93). -/

namespace Sys2Proof.Machine

/-- REM after a read that it served (R91). -/
theorem ofNat_rem_sub {r c : Count} (h : c.toNat ≤ r.toNat) :
    BitVec.ofNat 5 (r.toNat - c.toNat) = r - c := by
  bv_omega

/-- REM after a read that loaded a word (R91). -/
theorem ofNat_rem_loaded {r c : Count} (h : r.toNat < c.toNat) (hc : c.toNat ≤ 16) :
    BitVec.ofNat 5 (16 - (c.toNat - r.toNat)) = 16 - (c - r) := by
  bv_omega

/-- Settles O15: FAULTED, an ill-formed count, and the three paths of ReadBits. -/
theorem readBitsFollowsItsRule : Obligations.ReadBitsFollowsItsRule := by
  intro s c
  refine ⟨commandWord_eq_or c 0x3, serveCommand_answers_fault _, serveCommand_withCount_illegal _,
    fun hf hc hrem => ?_, fun hf hc hrem hlen => ?_,
    fun hf hc hrem hlen b0 b1 s0 s1 h0 h1 => ?_⟩ <;> rw [exec_rdbits_serving hf hc]
  · rw [readOne_within id hrem, ofNat_rem_sub hrem, id]
  · rw [readOne_underflow id hrem hlen]
  · rw [readOne_crossing id hrem hc hlen h0 h1, ofNat_rem_loaded hrem hc, hf]
    rfl

/-- Bit `k` of a word, as a number (R11). -/
theorem toNat_getLsbD (w : Word) (k : Nat) : (w.getLsbD k).toNat = w.toNat / 2 ^ k % 2 := by
  rw [BitVec.getLsbD, Nat.toNat_testBit]

/-- Settles O16: READ_BIT is a ReadBits step of one bit. -/
theorem readBitFollowsItsRule : Obligations.ReadBitFollowsItsRule := by
  refine ⟨rfl, fun s => ⟨serveCommand_answers_fault _, fun hf hrem => ?_,
    fun hf hrem hlen => ?_, fun hf hrem hlen b0 b1 s0 s1 h0 h1 => ?_⟩⟩ <;>
    rw [show exec .rdbit s = _ from serveCommand_serving (readOne 1 id) s hf]
  · rw [readOne_within id hrem, id, toNat_getLsbD, ← ofNat_rem_sub (c := 1) hrem]
    rfl
  · rw [readOne_underflow id (by simp [hrem]) hlen]
  · have hbit : (b1 ++ b0).toNat / 2 ^ 15 < 2 := by omega
    rw [readOne_crossing id (by simp [hrem]) (by omega) hlen h0 h1, toNat_getLsbD,
      Nat.mod_eq_of_lt hbit, hf]
    simp [hrem, Nat.mod_one, Config.AddrWidth.wrap_eq]

end Sys2Proof.Machine
end

section
/-! PROOFS. 41_bit_extraction.md: PEEK_BITS (R94, R100) and the count 0 (R97). -/

namespace Sys2Proof.Machine

/-- Settles O27: FAULTED, an ill-formed count, a peek within REM, and one beyond it by the bytes
left. -/
theorem peekFollowsItsRule : Obligations.PeekFollowsItsRule := by
  intro s c
  refine ⟨commandWord_eq_or c 0x4, serveCommand_answers_fault _, serveCommand_withCount_illegal _,
    fun hf hc hrem => ?_, fun hf hc hrem b0 b1 s0 s1 h0 h1 => ⟨fun hlen => ?_, fun hlen => ?_,
    fun hlen => ?_⟩⟩ <;> rw [exec_pkbits_serving hf hc]
  · rw [peekRule_within hrem]
  · have hnext : peekWord (beginCommand s) = (0, beginCommand s) := peekWord_of_len_zero hlen
    rw [peekRule_beyond hrem hc hnext]
    simp
  · have hnext := peekWord_of_len_one (s := beginCommand s) hlen
    rw [beginCommand_regs, h0, state_of_memRead h0] at hnext
    rw [peekRule_beyond hrem hc hnext, joinBytes_toNat]
    simp [Config.AddrWidth.wrap_eq]
  · have hnext := peekWord_of_two_le_len (s := beginCommand s) hlen
    rw [beginCommand_regs, readWord_of_memRead h0 h1] at hnext
    rw [peekRule_beyond hrem hc hnext]
    rfl

/-- Settles O30: a count of 0 is within REM whatever it is (R97). -/
theorem countZeroChangesNothing : Obligations.CountZeroChangesNothing := by
  intro s hf
  have hwithin : (0 : Count).toNat ≤ s.cur.regs.rem.toNat := Nat.zero_le _
  constructor
  · rw [exec_rdbits_serving hf (by decide), readOne_within id hwithin, ofNat_rem_sub hwithin]
    simp [Nat.mod_one]
  · rw [exec_pkbits_serving hf (by decide), peekRule_within hwithin]
    simp [Nat.mod_one]

end Sys2Proof.Machine
end

section
/-! PROOFS. 41_bit_extraction.md: a peek leaves later commands as they are (R95), and what an
underflow needs (R91, R131). -/

namespace Sys2Proof.Machine

/-- R60: what an engine last answered and read has no say in how it serves the next command. -/
theorem exec_beginCommand (i : Instr) (s : State) : exec i (beginCommand s) = exec i s := by
  cases i <;> rfl

theorem exec_congr {s t : State} (h : beginCommand t = beginCommand s) (i : Instr) :
    exec i t = exec i s := by
  rw [← exec_beginCommand, h, exec_beginCommand]

/-- R94, R50: a peek at bytes on which the host kept its duty changes nothing but the record of
reads: it takes no draw. -/
theorem peekWord_clean {s : State}
    (h0 : 1 ≤ s.cur.regs.len → s.addrW.wrap s.cur.regs.ptr ∉ s.cur.session.disturbed)
    (h1 : 2 ≤ s.cur.regs.len → s.addrW.wrap (s.cur.regs.ptr + 1) ∉ s.cur.session.disturbed) :
    ∃ rs, (peekWord s).2 = { s with cur := { s.cur with reads := rs } } := by
  rcases (by omega : s.cur.regs.len = 0 ∨ s.cur.regs.len = 1 ∨ 2 ≤ s.cur.regs.len) with
    hlen | hlen | hlen
  · exact ⟨_, by rw [peekWord_of_len_zero hlen]⟩
  · exact ⟨_, by rw [peekWord_of_len_one hlen, memRead_clean _ s (h0 (by omega))]⟩
  · exact ⟨_, by
      rw [peekWord_of_two_le_len hlen, readWord_clean _ s (h0 (by omega)) (h1 hlen)]⟩

theorem peekRule_clean (n : Nat) {s : State}
    (h0 : 1 ≤ s.cur.regs.len → s.addrW.wrap s.cur.regs.ptr ∉ s.cur.session.disturbed)
    (h1 : 2 ≤ s.cur.regs.len → s.addrW.wrap (s.cur.regs.ptr + 1) ∉ s.cur.session.disturbed) :
    beginCommand (peekRule n s) = beginCommand s := by
  rcases Nat.lt_or_ge s.cur.regs.rem.toNat n with h | h
  · obtain ⟨rs, hrs⟩ := peekWord_clean h0 h1
    rw [peekRule, peekBits_beyond h, hrs]
    rfl
  · rw [peekRule, peekBits_within h]
    rfl

/-- R91, R131: a reading command whose first ReadBits step is short of bits underflows and changes
nothing. -/
theorem exec_underflow {i : Instr} {n : Nat} {s : State} (hw : i.wellFormed = true)
    (hi : i.firstRead = some n) (hf : s.cur.regs.faulted = false)
    (hrem : s.cur.regs.rem.toNat < n) (hlen : s.cur.regs.len < 2) :
    exec i s = .next (s.answers s.cur.regs .underflow 0 [] s.draws) := by
  have one (f : Nat → Nat) : serveCommand (readOne n f) s
      = .next (s.answers s.cur.regs .underflow 0 [] s.draws) := by
    rw [serveCommand_serving _ s hf, readOne_underflow f hrem hlen]
  have two (k : Nat) (f : Nat → Nat → Nat) : serveCommand (readTwo n k f) s
      = .next (s.answers s.cur.regs .underflow 0 [] s.draws) := by
    rw [serveCommand_serving _ s hf,
      readTwo_of_none k f (readBits_underflow n (beginCommand s) hrem hlen)]
    rfl
  cases i with
  | init | pkbits | isempty => cases hi
  | rdbit => cases hi; exact one id
  | rdbits c =>
    cases hi
    exact (serveCommand_withCount_legal _ s (toNat_le_of_rdbits_wellFormed hw)).trans (one id)
  | rdu16le => cases hi; exact one swap16
  | rdu32le => cases hi; exact two 16 joinU32le
  | rdu24be => cases hi; exact two 8 joinU24be

/-- Settles O28: a peek that takes no draw leaves the next command an engine it cannot tell from the
one before; after reset there is no bit to read. -/
theorem peekDisturbsNoLaterCommand : Obligations.PeekDisturbsNoLaterCommand := by
  refine ⟨fun s c hc => ?_, fun i n hw hi hn => ⟨State.reset, _,
    exec_underflow hw hi rfl hn (by decide), rfl⟩⟩
  cases hf : s.cur.regs.faulted with
  | true =>
    have hexec : exec (.pkbits c) s = _ := serveCommand_answers_fault _ hf
    exact ⟨_, _, hexec, rfl, nofun, fun _ _ =>
      ⟨exec_congr rfl, (exec_congr rfl _).trans hexec⟩⟩
  | false =>
    have hexec := exec_pkbits_serving hf hc
    refine ⟨_, _, hexec, rfl, nofun, fun h0 h1 => ?_⟩
    have hsame : beginCommand (peekRule c.toNat (beginCommand s)) = beginCommand s :=
      peekRule_clean c.toNat (s := beginCommand s) h0 h1
    exact ⟨exec_congr hsame, (exec_congr hsame _).trans hexec⟩

end Sys2Proof.Machine
end

section
/-! PROOFS. 41_bit_extraction.md: a peek and the read of the same count (R96). -/

namespace Sys2Proof.Machine

/-- R96: where REM or a whole word serves it, a ReadBits step returns what the peek sees. -/
theorem readBits_eq_peekBits {n : Nat} {s : State}
    (h : n ≤ s.cur.regs.rem.toNat ∨ 2 ≤ s.cur.regs.len) :
    ∃ t, readBits n s = some ((peekBits n s).1, t) := by
  rcases Nat.lt_or_ge s.cur.regs.rem.toNat n with hrem | hrem
  · have hlen : 2 ≤ s.cur.regs.len := h.resolve_left (Nat.not_le.mpr hrem)
    rw [readBits_crossing n s hrem hlen, peekBits_beyond hrem, peekWord_of_two_le_len hlen,
      loadWord_word]
    exact ⟨_, rfl⟩
  · rw [readBits_within n s hrem, peekBits_within hrem]
    exact ⟨_, rfl⟩

/-- R94: the word a peek sees where no whole word is left. -/
theorem peekWord_toNat_of_len_lt_two {s : State} (h : s.cur.regs.len < 2) :
    (peekWord s).1.toNat
      = if s.cur.regs.len = 1 then (memRead s.cur.regs.ptr s).1.toNat else 0 := by
  split
  next hlen =>
    rw [peekWord_of_len_one hlen, joinBytes_toNat]
    simp
  next hlen =>
    rw [peekWord_of_len_zero (by omega)]
    rfl

/-- Settles O29: the read returns what the peek sees, or underflows where no whole word is left. -/
theorem peekAgreesWithRead : Obligations.PeekAgreesWithRead := by
  intro s c hf hc
  have hpeek := exec_pkbits_serving hf hc
  refine ⟨fun hserved => ?_, fun hrem hlen => ?_⟩
  · obtain ⟨t, ht⟩ := readBits_eq_peekBits (s := beginCommand s) hserved
    refine ⟨_, _, _, hpeek, exec_rdbits_serving hf hc, rfl, ?_⟩
    rw [readOne, ht]
    rfl
  · refine ⟨_, _, hpeek, (exec_rdbits_serving hf hc).trans
      (congrArg _ (readOne_underflow id hrem hlen)), rfl, ?_⟩
    rw [peekRule, peekBits_beyond (s := beginCommand s) hrem, extract_of_lt (by exact hrem) hc,
      peekWord_toNat_of_len_lt_two (s := beginCommand s) hlen]
    rfl

end Sys2Proof.Machine
end

section
/-! PROOFS. 10_state.md: INIT and clean reads keep the cursor of the session (R21, R32) and its hold
on memory (R50). -/

namespace Sys2Proof.Machine

variable {w : Config.AddrWidth} {m : Memory} {pending : List (Nat × Byte)} {e : Instance} {n : Nat}

/-- R80: INIT stands at the front of its session, nothing loaded. -/
theorem init_cursorInv {base blen : Nat} (hbase : base < w.size) (hblen : blen < w.size)
    (word : Word) (faulted : Bool) (d : List Nat) (r : Option Response) (reads : List Nat) :
    (Instance.mk ⟨word, 0, base, blen, faulted⟩ ⟨base, blen, d⟩ r reads).CursorInv w where
  in_range   := ⟨Nat.zero_le _, hbase, hblen⟩
  base_lt    := hbase
  len_lt     := hblen
  len_parity := by simp [Instance.loadedWords]
  ptr_eq     := by simp [Instance.loadedWords, Session.addr, w.wrap_of_lt hbase]
  rem_loaded := Nat.zero_le _

/-- R83, R154: INIT notes the writes not yet visible in its session's range, and no others. -/
theorem init_memoryInv {base blen : Nat} (hp : ∀ p ∈ pending, p.1 < w.size)
    (word : Word) (faulted : Bool) (r : Option Response) (reads : List Nat) :
    (Instance.mk ⟨word, 0, base, blen, faulted⟩ (Session.start w base blen pending) r
      reads).MemoryInv w m pending := by
  have hnoted (a : Nat) : a ∈ (Session.start w base blen pending).disturbed ↔
      (⟨base, blen, []⟩ : Session).covers w a = true ∧ ∃ b, (a, b) ∈ pending := by
    rw [Session.start, mem_disturb_list]
    simp
  obtain ⟨d, hd⟩ := exists_sessionStart_eq w base blen pending
  rw [hd] at hnoted ⊢
  exact {
    word_eq := fun hloaded => by simp [Instance.loadedWords] at hloaded
    pending_noted := fun p hp' hcov => (hnoted p.1).mpr ⟨hcov, p.2, hp'⟩
    disturbed_covered := fun a ha =>
      have ⟨hcov, b, hb⟩ := (hnoted a).mp ha
      ⟨hp (a, b) hb, hcov⟩ }

/-- R21, R32: reads of `n` bits load `loadsFor n` words of the session. -/
theorem loadedWords_answered_advance (hc : e.CursorInv w) (ha : n ≤ e.regs.available)
    (st : Status) (v : Nat) (rs : List Nat) :
    (e.answered (e.regs.advance w m n) st v rs).loadedWords
      = e.loadedWords + e.regs.loadsFor n := by
  have hparity := hc.len_parity
  have hlen := loadsFor_le_len ha
  change (e.session.len - (e.regs.len - 2 * e.regs.loadsFor n)) / 2 = _
  omega

theorem cursorInv_answered_advance (hc : e.CursorInv w) (ha : n ≤ e.regs.available)
    (st : Status) (v : Nat) (rs : List Nat) :
    (e.answered (e.regs.advance w m n) st v rs).CursorInv w where
  in_range   := advance_inRange hc.in_range
  base_lt    := hc.base_lt
  len_lt     := hc.len_lt
  len_parity := by
    have hparity := hc.len_parity
    have hlen := loadsFor_le_len ha
    rw [loadedWords_answered_advance hc ha]
    change e.session.len = e.regs.len - 2 * e.regs.loadsFor n + _
    omega
  ptr_eq     := by
    rw [loadedWords_answered_advance hc ha]
    change w.wrap (e.regs.ptr + 2 * e.regs.loadsFor n) = e.session.addr w _
    rw [hc.ptr_eq, Session.addr, Session.addr, w.wrap_wrap_add, Nat.mul_add, Nat.add_assoc]
  rem_loaded := by
    have hrem := hc.rem_loaded
    rw [loadedWords_answered_advance hc ha]
    change (e.regs.advance w m n).rem.toNat ≤ _
    rw [advance_rem hc.in_range.rem_le]
    omega

/-- R32, R42: the word the last load left in WORD is the last loaded word of the stream. -/
theorem memoryInv_answered_advance (hc : e.CursorInv w) (hm : e.MemoryInv w m pending)
    (ha : n ≤ e.regs.available) (st : Status) (v : Nat) (rs : List Nat) :
    (e.answered (e.regs.advance w m n) st v rs).MemoryInv w m pending where
  word_eq := by
    rw [loadedWords_answered_advance hc ha]
    change _ → _ → _ → (if e.regs.loadsFor n = 0 then e.regs.word else _) = _
    split
    next h0 =>
      rw [h0]
      exact hm.word_eq
    next hpos =>
      rw [unloadedWord_eq_streamWord hc, ← Nat.add_sub_assoc (by omega)]
      exact fun _ _ _ => rfl
  pending_noted     := hm.pending_noted
  disturbed_covered := hm.disturbed_covered

end Sys2Proof.Machine
end

section
/-! PROOFS. 41_bit_extraction.md: the round trip of packed values (R99). -/

namespace Sys2Proof.Machine

variable {w : Config.AddrWidth} {m : Memory} {ses : Session}

/-! ### The packed number -/

theorem foldl_packed (fs : List (Count × Nat)) (acc : Nat) :
    fs.foldl (fun acc f => acc * 2 ^ f.1.toNat + f.2) acc
      = acc * 2 ^ packedWidth fs + packed fs := by
  induction fs generalizing acc with
  | nil => simp [packedWidth, packed]
  | cons f fs ih =>
    rw [packed, List.foldl_cons, List.foldl_cons, ih, ih, packedWidth, packedWidth, List.map_cons,
      List.sum_cons, Nat.pow_add]
    ring

theorem packedWidth_cons (f : Count × Nat) (fs : List (Count × Nat)) :
    packedWidth (f :: fs) = f.1.toNat + packedWidth fs := rfl

/-- The first value is the most significant. -/
theorem packed_cons (f : Count × Nat) (fs : List (Count × Nat)) :
    packed (f :: fs) = f.2 * 2 ^ packedWidth fs + packed fs := by
  rw [packed, List.foldl_cons, foldl_packed, Nat.zero_mul, Nat.zero_add]

theorem packed_lt {fs : List (Count × Nat)} (h : ∀ f ∈ fs, f.2 < 2 ^ f.1.toNat) :
    packed fs < 2 ^ packedWidth fs := by
  induction fs with
  | nil => simp [packed, packedWidth]
  | cons f fs ih =>
    have hf := h f List.mem_cons_self
    have hfs := ih fun g hg => h g (List.mem_cons_of_mem _ hg)
    rw [packed_cons, packedWidth_cons, Nat.pow_add]
    nlinarith

theorem packedWidth_le (fs : List (Count × Nat)) : packedWidth fs ≤ 16 * packedWords fs := by
  rw [packedWords]
  omega

/-! ### The packed number in the stream -/

/-- R31: a session whose first words are those of a number `v` of `16 * k` bits has that number's
high bits as its stream. -/
theorem streamBits_of_words {v k : Nat} (hv : v < 2 ^ (16 * k))
    (hwords : ∀ j, j < k → (streamWord w m ses j).toNat = v / 2 ^ (16 * (k - 1 - j)) % 2 ^ 16) :
    ∀ j, j ≤ k → streamBits w m ses 0 (16 * j) = v / 2 ^ (16 * (k - j)) := by
  intro j hj
  induction j with
  | zero => rw [Nat.sub_zero, Nat.div_eq_of_lt hv]; rfl
  | succ j ih =>
    rw [Nat.mul_succ, streamBits_add, Nat.zero_add, streamBits_word, ih (by omega),
      hwords j (by omega), show 16 * (k - j) = 16 * (k - 1 - j) + 16 by omega, Nat.pow_add,
      ← Nat.div_div_eq_div_mul, Nat.div_add_mod', Nat.sub_add_eq, Nat.sub_right_comm]

/-- R99: the stream over the packed words starts with the packed values. -/
theorem streamBits_packed {fs : List (Count × Nat)} (hfs : ∀ f ∈ fs, f.2 < 2 ^ f.1.toNat)
    (hwords : ∀ j, j < packedWords fs → (streamWord w m ses j).toNat = packedWord fs j) :
    streamBits w m ses 0 (packedWidth fs) = packed fs := by
  have hpad : packedWidth fs + (16 * packedWords fs - packedWidth fs) = 16 * packedWords fs :=
    Nat.add_sub_cancel' (packedWidth_le fs)
  have hlt : packed fs * 2 ^ (16 * packedWords fs - packedWidth fs)
      < 2 ^ (16 * packedWords fs) := by
    calc _ < 2 ^ packedWidth fs * 2 ^ (16 * packedWords fs - packedWidth fs) :=
          Nat.mul_lt_mul_of_pos_right (packed_lt hfs) (Nat.two_pow_pos _)
      _ = _ := by rw [← Nat.pow_add, hpad]
  have hall := streamBits_of_words hlt hwords _ (Nat.le_refl _)
  rw [← streamBits_high 0 _ (16 * packedWords fs - packedWidth fs), hpad, hall, Nat.sub_self]
  simp

/-- Bytes in little-endian pairs are the words of the stream (R43). -/
theorem streamWord_of_bytes {k v : Nat}
    (h0 : (byteAt m (ses.addr w (2 * k))).toNat = v % 256)
    (h1 : (byteAt m (ses.addr w (2 * k + 1))).toNat = v / 256) :
    (streamWord w m ses k).toNat = v := by
  rw [streamWord, joinBytes_toNat, h0, h1]
  omega

/-! ### The reads -/

/-- A run of bits cut in two, earliest high, in one way only. -/
theorem eq_of_concat_eq {a b c d k : Nat} (hb : b < 2 ^ k) (hd : d < 2 ^ k)
    (h : a * 2 ^ k + b = c * 2 ^ k + d) : a = c ∧ b = d := by
  have hpos := Nat.two_pow_pos k
  have hac : a = c := by
    have := congrArg (· / 2 ^ k) h
    simpa [Nat.mul_comm _ (2 ^ k), Nat.mul_add_div hpos, Nat.div_eq_of_lt hb,
      Nat.div_eq_of_lt hd] using this
  subst hac
  exact ⟨rfl, Nat.add_left_cancel h⟩

/-- R60: a command that completes, and then the ones after it. -/
theorem exists_runCommands_cons {i : Instr} {is : List Instr} {s t : State} {r : Option Response}
    {rs : List (Option Response)} (h : exec i s = .next t) (hr : t.cur.response = r)
    (ht : ∃ u, runCommands is t = some (rs, u)) :
    ∃ u, runCommands (i :: is) s = some (r :: rs, u) := by
  obtain ⟨u, hu⟩ := ht
  exact ⟨u, by simp only [runCommands, h, hu, hr]⟩

/-- R32, R92: in a session whose bytes the host left alone, READ_BITS answers the stream bits at the
cursor. -/
theorem exec_rdbits_stream {c : Count} {s : State} (hcount : c.toNat ≤ 16)
    (hc : s.cur.CursorInv s.addrW) (hm : s.cur.MemoryInv s.addrW s.mem s.pending)
    (hd : s.cur.session.disturbed = []) (hf : s.cur.regs.faulted = false)
    (ha : c.toNat ≤ s.cur.regs.available) :
    exec (.rdbits c) s = .next (s.answers (s.cur.regs.advance s.addrW s.mem c.toNat) .ok
      (streamBits s.addrW s.mem s.cur.session s.cur.consumed c.toNat)
      (s.cur.regs.loadAddrs s.addrW c.toNat) s.draws) := by
  rw [← nextBits_eq_streamBits hc hm hd (by omega)]
  exact exec_reading_clean (i := .rdbits c) (decide_eq_true hcount) rfl hf hc.in_range ha
    (cleanFor_of_undisturbed _ hd)

/-- R32: in a session whose bytes the host left alone, reads of the widths of packed values that
stand at the cursor answer them in order. -/
theorem runCommands_rdbits_packed (fs : List (Count × Nat)) (s : State)
    (hfs : ∀ f ∈ fs, f.1.toNat ≤ 16 ∧ f.2 < 2 ^ f.1.toNat)
    (hc : s.cur.CursorInv s.addrW) (hm : s.cur.MemoryInv s.addrW s.mem s.pending)
    (hd : s.cur.session.disturbed = []) (hf : s.cur.regs.faulted = false)
    (ha : packedWidth fs ≤ s.cur.regs.available)
    (hbits : streamBits s.addrW s.mem s.cur.session s.cur.consumed (packedWidth fs) = packed fs) :
    ∃ u, runCommands (fs.map fun f => .rdbits f.1) s
      = some (fs.map fun f => some ⟨.ok, BitVec.ofNat 32 f.2⟩, u) := by
  induction fs generalizing s with
  | nil => exact ⟨s, rfl⟩
  | cons f fs ih =>
    obtain ⟨⟨hcount, -⟩, hfs'⟩ := List.forall_mem_cons.mp hfs
    rw [packedWidth_cons] at ha hbits
    have hn : f.1.toNat ≤ s.cur.regs.available := by omega
    have hexec := exec_rdbits_stream hcount hc hm hd hf hn
    rw [streamBits_add, packed_cons] at hbits
    obtain ⟨hfirst, hrest⟩ := eq_of_concat_eq (streamBits_lt _ _)
      (packed_lt fun g hg => (hfs' g hg).2) hbits
    rw [hfirst] at hexec
    exact exists_runCommands_cons hexec rfl (ih _ hfs' (cursorInv_answered_advance hc hn _ _ _)
      (memoryInv_answered_advance hc hm hn _ _ _) hd hf (available_advance hc.in_range.rem_le ha)
      ((congrArg (streamBits s.addrW s.mem s.cur.session · _)
        (consumed_answered_advance hc hn _ _ _)).trans hrest))

/-- Settles O51: INIT stands at the front of a stream that starts with the packed values. -/
theorem packedValuesReadBack : Obligations.PackedValuesReadBack := by
  intro s base fs hf hp hfs hbase hblen hbytes
  have hexec := exec_init_serving base (2 * packedWords fs) hf
  rw [s.addrW.wrap_of_lt hbase, s.addrW.wrap_of_lt hblen, hp] at hexec
  have hwords : ∀ k, k < packedWords fs →
      (streamWord s.addrW s.mem ⟨base, 2 * packedWords fs, []⟩ k).toNat = packedWord fs k :=
    fun k hk => streamWord_of_bytes (hbytes k hk).1 (hbytes k hk).2
  have hbits := streamBits_packed (fun f hmem => (hfs f hmem).2) hwords
  exact exists_runCommands_cons hexec rfl (runCommands_rdbits_packed fs _ hfs
    (init_cursorInv hbase hblen _ _ _ _ _)
    (init_memoryInv (fun _ hmem => (List.not_mem_nil hmem).elim) _ _ _ _) rfl rfl
    (by simpa [Regs.available] using packedWidth_le fs)
    (by simpa [Instance.consumed, Instance.loadedWords, Session.start] using hbits))

end Sys2Proof.Machine
end

section
/-! PROOFS. 42_marshaling.md: commands of one and two ReadBits steps, by the outcome of each step
(R91, R110). -/

namespace Sys2Proof.Machine

/-! ### A ReadBits step -/

/-- R90, R91: a ReadBits step returns a number of its width, whatever REM is. -/
theorem readBits_lt {n v : Nat} {s t : State} (h : readBits n s = some (v, t)) (hn : n ≤ 16) :
    v < 2 ^ n := by
  obtain ⟨hrem, rfl, -⟩ | ⟨hrem, -, rfl, -⟩ := readBits_cases h
  · rw [extract_of_le hrem]
    exact Nat.mod_lt _ (Nat.two_pow_pos n)
  · exact extract_lt _ _ _ _ (hrem.le.trans hn) hn

/-- R131: a ReadBits step underflows exactly where it is short of bits. -/
theorem readBits_eq_none_iff_available {n : Nat} (s : State) (hn : n ≤ 16) :
    readBits n s = none ↔ s.cur.regs.available < n := by
  rw [readBits_eq_none_iff, Regs.available]
  omega

/-- R91: a ReadBits step takes its width from the bits left. -/
theorem available_readBits {n v : Nat} {s t : State} (h : readBits n s = some (v, t))
    (hn : n ≤ 16) : t.cur.regs.available + n = s.cur.regs.available := by
  obtain ⟨hrem, -, rfl⟩ | ⟨hrem, hlen, -, rfl⟩ := readBits_cases h
  · simp only [Regs.available, setRem_rem, setRem_len, BitVec.toNat_ofNat]
    omega
  · obtain ⟨d, hd⟩ := loadWord_frame s
    simp only [Regs.available, setRem_rem, setRem_len, BitVec.toNat_ofNat, hd]
    omega

theorem readOne_of_some {n v : Nat} {s t : State} (f : Nat → Nat)
    (h : readBits n s = some (v, t)) : readOne n f s = respond .ok (f v) t := by
  rw [readOne, h]

theorem readOne_of_none {n : Nat} {s : State} (f : Nat → Nat) (h : readBits n s = none) :
    readOne n f s = respond .underflow 0 s := by
  rw [readOne, h]

/-! ### A step within a command that already read

A ReadBits step sees neither the response port nor the bytes read so far (R41, R91). -/

/-- `t` with the response port of `s`, and the bytes read in `s` before its own. -/
def State.continuing (s t : State) : State :=
  { t with cur := { t.cur with response := s.cur.response, reads := s.cur.reads ++ t.cur.reads } }

theorem continuing_beginCommand (s : State) : s.continuing (beginCommand s) = s := by
  simp only [State.continuing, beginCommand_reads, List.append_nil]
  rfl

theorem memRead_continuing (a : Nat) (s t : State) :
    memRead a (s.continuing t) = ((memRead a t).1, s.continuing (memRead a t).2) := by
  by_cases h : t.addrW.wrap a ∈ t.cur.session.disturbed
  · rw [memRead_disturbed a t h, memRead_disturbed a (s.continuing t) h]
    simp [State.continuing]
  · rw [memRead_clean a t h, memRead_clean a (s.continuing t) h]
    simp [State.continuing]

theorem readWord_continuing (a : Nat) (s t : State) :
    readWord a (s.continuing t) = ((readWord a t).1, s.continuing (readWord a t).2) := by
  simp only [readWord, memRead_continuing]

theorem loadWord_continuing (s t : State) :
    loadWord (s.continuing t) = s.continuing (loadWord t) := by
  have hword := readWord_continuing t.cur.regs.ptr s t
  rw [loadWord, show (s.continuing t).cur.regs = t.cur.regs from rfl, hword]
  rfl

theorem readBits_continuing {n v : Nat} {s t u : State} (h : readBits n t = some (v, u)) :
    readBits n (s.continuing t) = some (v, s.continuing u) := by
  obtain ⟨hrem, rfl, rfl⟩ | ⟨hrem, hlen, rfl, rfl⟩ := readBits_cases h
  · exact readBits_within n (s.continuing t) hrem
  · rw [readBits_crossing n (s.continuing t) hrem hlen, loadWord_continuing]
    rfl

/-! ### Commands -/

section
variable {n k : Nat} {f g : Nat → Nat} {join : Nat → Nat → Nat} {s t u : State} {r q : Response}

/-- R91, R136: a command of one ReadBits step that answers OK did the step. -/
theorem serveCommand_readOne_ok (h : serveCommand (readOne n f) s = .next t)
    (hr : t.cur.response = some r) (hok : r.status = .ok) :
    s.cur.regs.faulted = false ∧ ∃ v t₁, readBits n (beginCommand s) = some (v, t₁) ∧
      t = respond .ok (f v) t₁ ∧ r.value = BitVec.ofNat 32 (f v) := by
  obtain ⟨-, rfl⟩ | ⟨hf, rfl⟩ := serveCommand_cases h
  · cases hr
    cases hok
  · cases hread : readBits n (beginCommand s) with
    | none =>
      rw [readOne_of_none f hread] at hr
      cases hr
      cases hok
    | some p =>
      rw [readOne_of_some f hread] at hr ⊢
      cases hr
      exact ⟨hf, p.1, p.2, rfl, rfl, rfl⟩

/-- R91, R136: a command of one ReadBits step that does not answer OK was turned away or
underflowed. -/
theorem serveCommand_readOne_not_ok (h : serveCommand (readOne n f) s = .next t)
    (hr : t.cur.response = some r) (hnok : r.status ≠ .ok) :
    (s.cur.regs.faulted = true ∧ t = answerFaulted (beginCommand s)) ∨
    (s.cur.regs.faulted = false ∧ readBits n (beginCommand s) = none ∧
      t = respond .underflow 0 (beginCommand s)) := by
  obtain hfault | ⟨hf, rfl⟩ := serveCommand_cases h
  · exact .inl hfault
  · cases hread : readBits n (beginCommand s) with
    | none => exact .inr ⟨hf, rfl, readOne_of_none f hread⟩
    | some p =>
      rw [readOne_of_some f hread] at hr
      cases hr
      exact absurd rfl hnok

/-- A command of one ReadBits step that answers no value answers the same whatever becomes of the
value. -/
theorem serveCommand_readOne_of_not_ok (h : serveCommand (readOne n f) s = .next t)
    (hr : t.cur.response = some r) (hnok : r.status ≠ .ok) :
    serveCommand (readOne n g) s = .next t := by
  obtain ⟨hf, rfl⟩ | ⟨hf, hread, rfl⟩ := serveCommand_readOne_not_ok h hr hnok
  · exact serveCommand_faulted _ s hf
  · rw [serveCommand_serving _ s hf, readOne_of_none g hread]

/-- R110: a command of two ReadBits steps whose first does not complete. -/
theorem serveCommand_readTwo_of_not_ok (h : serveCommand (readOne n f) s = .next t)
    (hr : t.cur.response = some r) (hnok : r.status ≠ .ok) :
    serveCommand (readTwo n k join) s = .next t := by
  obtain ⟨hf, rfl⟩ | ⟨hf, hread, rfl⟩ := serveCommand_readOne_not_ok h hr hnok
  · exact serveCommand_faulted _ s hf
  · rw [serveCommand_serving _ s hf, readTwo_of_none k join hread]

/-- R110: a command of two ReadBits steps whose second does not complete keeps all the first did. -/
theorem serveCommand_readTwo_of_second_not_ok (h : serveCommand (readOne n f) s = .next t)
    (hr : t.cur.response = some r) (hok : r.status = .ok)
    (h' : serveCommand (readOne k g) t = .next u) (hq : u.cur.response = some q)
    (hnok : q.status ≠ .ok) : serveCommand (readTwo n k join) s
      = .next (t.answers t.cur.regs .underflow 0 t.cur.reads t.draws) := by
  obtain ⟨hf, v, t₁, hread, rfl, -⟩ := serveCommand_readOne_ok h hr hok
  obtain ⟨-, -, -, -, -, -, -, hfaulted⟩ := readBits_frame hread
  obtain ⟨hf', -⟩ | ⟨-, hread', -⟩ := serveCommand_readOne_not_ok h' hq hnok
  · exact absurd (hf'.symm.trans (hfaulted.trans hf)) (by decide)
  · have hshort := (readBits_eq_none_iff k _).mp hread'
    have hsecond : readBits k t₁ = none := (readBits_eq_none_iff k t₁).mpr hshort
    rw [serveCommand_serving _ s hf, readTwo_of_some k join hread,
      readOne_of_none _ hsecond]
    rfl

/-- R110: a command of two ReadBits steps that completes answers as the two commands of one step do,
the first's value joined to the second's and the bytes read one after another. -/
theorem serveCommand_readTwo_of_ok (h : serveCommand (readOne n f) s = .next t)
    (hr : t.cur.response = some r) (hok : r.status = .ok)
    (h' : serveCommand (readOne k g) t = .next u) (hq : u.cur.response = some q)
    (hok' : q.status = .ok) : ∃ v w, (n ≤ 16 → v < 2 ^ n) ∧ (k ≤ 16 → w < 2 ^ k) ∧
      r.value = BitVec.ofNat 32 (f v) ∧ q.value = BitVec.ofNat 32 (g w) ∧
      serveCommand (readTwo n k join) s = .next (u.answers u.cur.regs .ok (join v w)
        (t.cur.reads ++ u.cur.reads) u.draws) := by
  obtain ⟨hf, v, t₁, hread, rfl, hrv⟩ := serveCommand_readOne_ok h hr hok
  obtain ⟨-, w, u₁, hread', rfl, hqw⟩ := serveCommand_readOne_ok h' hq hok'
  have hsecond : readBits k t₁ = some (w, t₁.continuing u₁) := by
    have := readBits_continuing (s := t₁) (t := beginCommand t₁) hread'
    rwa [continuing_beginCommand] at this
  refine ⟨v, w, readBits_lt hread, readBits_lt hread', hrv, hqw, ?_⟩
  rw [serveCommand_serving _ s hf, readTwo_of_some k join hread, readOne_of_some _ hsecond]
  rfl

/-- R110, R131: a command of two ReadBits steps with bits for the first alone underflows and keeps
all the first did. -/
theorem serveCommand_readTwo_second_underflow (f : Nat → Nat) (hf : s.cur.regs.faulted = false)
    (hn : n ≤ 16) (hk : k ≤ 16) (hfirst : n ≤ s.cur.regs.available)
    (hsecond : s.cur.regs.available < n + k) :
    ∃ t, serveCommand (readOne n f) s = .next t ∧ serveCommand (readTwo n k join) s
      = .next (t.answers t.cur.regs .underflow 0 t.cur.reads t.draws) := by
  cases hread : readBits n (beginCommand s) with
  | none =>
    exact absurd ((readBits_eq_none_iff_available (beginCommand s) hn).mp hread)
      (Nat.not_lt.mpr hfirst)
  | some p =>
    obtain ⟨v, t₁⟩ := p
    have hleft : t₁.cur.regs.available + n = s.cur.regs.available :=
      available_readBits (s := beginCommand s) hread hn
    have hnone : readBits k t₁ = none := (readBits_eq_none_iff_available t₁ hk).mpr (by omega)
    refine ⟨respond .ok (f v) t₁, ?_, ?_⟩
    · rw [serveCommand_serving _ s hf, readOne_of_some f hread]
    · rw [serveCommand_serving _ s hf, readTwo_of_some k join hread, readOne_of_none _ hnone]
      rfl

end

end Sys2Proof.Machine
end

section
/-! PROOFS. 42_marshaling.md: READ_U16_LE, READ_U32_LE and READ_U24_BE as reads of fewer bits (R110
to R113). -/

namespace Sys2Proof.Machine

/-- R92: READ_BITS of a legal count is one ReadBits step. -/
theorem exec_rdbits_eq {c : Count} (s : State) (hc : c.toNat ≤ 16) :
    exec (.rdbits c) s = serveCommand (readOne c.toNat id) s :=
  serveCommand_withCount_legal _ s hc

/-- R111: READ_U16_LE on an engine that is not FAULTED. -/
theorem exec_rdu16le_serving {s : State} (hf : s.cur.regs.faulted = false) :
    exec .rdu16le s = .next (readOne 16 swap16 (beginCommand s)) :=
  serveCommand_serving _ s hf

/-- Settles O21: a first step short of bits underflows by itself; a second one after it keeps what
it did. -/
theorem secondUnderflowKeepsTheFirstStep : Obligations.SecondUnderflowKeepsTheFirstStep := by
  intro i n s hi hf
  have short {i : Instr} (hw : i.wellFormed = true) (hi : i.firstRead = some 16)
      (ha : s.cur.regs.available < 16) :
      exec i s = .next (s.answers s.cur.regs .underflow 0 [] s.draws) := by
    obtain ⟨hrem, hlen⟩ := (readBits_eq_none_iff 16 s).mp
      ((readBits_eq_none_iff_available s (Nat.le_refl 16)).mpr ha)
    exact exec_underflow hw hi hf hrem hlen
  rw [exec_rdbits_eq s (by decide)]
  obtain ⟨rfl, rfl⟩ | ⟨rfl, rfl⟩ := hi
  · exact ⟨short rfl rfl,
      serveCommand_readTwo_second_underflow (n := 16) (k := 16) id hf (by omega) (by omega),
      short rfl rfl⟩
  · exact ⟨short rfl rfl,
      serveCommand_readTwo_second_underflow (n := 16) (k := 8) id hf (by omega) (by omega),
      short rfl rfl⟩

/-- Settles O22: the two commands are one ReadBits step of 16, and differ in what becomes of its
value. -/
theorem readU16LeSwapsTheBytes : Obligations.ReadU16LeSwapsTheBytes := by
  refine ⟨rfl, fun s t h r hr => ?_⟩
  rw [exec_rdbits_eq s (by decide)] at h
  refine ⟨fun hok => ?_, serveCommand_readOne_of_not_ok h hr⟩
  obtain ⟨hf, v, t₁, hread, rfl, hrv⟩ := serveCommand_readOne_ok h hr hok
  have hv : v < 2 ^ 16 := readBits_lt hread (by decide)
  have hswap : swap16 v = r.value.toNat % 256 * 256 + r.value.toNat / 256 := by
    rw [hrv, BitVec.toNat_ofNat, swap16_eq, id]
    omega
  rw [← hswap, exec_rdu16le_serving hf, readOne_of_some (n := 16) swap16 hread]
  rfl

/-- Settles O23: the values of the two commands are the swapped halves that READ_U32_LE joins. -/
theorem readU32LeIsTwoReadU16Le : Obligations.ReadU32LeIsTwoReadU16Le := by
  refine ⟨rfl, fun s t r h hr => ⟨serveCommand_readTwo_of_not_ok h hr, fun hok u q h' hq =>
    ⟨serveCommand_readTwo_of_second_not_ok h hr hok h' hq, fun hok' => ?_⟩⟩⟩
  obtain ⟨v, w, -, -, hrv, hqw, hexec⟩ :=
    serveCommand_readTwo_of_ok (join := joinU32le) h hr hok h' hq hok'
  have hjoin : joinU32le v w = q.value.toNat * 2 ^ 16 + r.value.toNat := by
    have hv := swap16_lt v
    have hw := swap16_lt w
    rw [hrv, hqw, BitVec.toNat_ofNat, BitVec.toNat_ofNat, joinU32le_eq]
    omega
  rw [← hjoin]
  exact hexec

/-- Settles O24: the values of the two commands are the halves that READ_U24_BE joins as they
are. -/
theorem readU24BeIsARunOf24Bits : Obligations.ReadU24BeIsARunOf24Bits := by
  refine ⟨rfl, fun s t r h hr => ?_⟩
  rw [exec_rdbits_eq s (by decide)] at h
  refine ⟨serveCommand_readTwo_of_not_ok h hr, fun hok u q h' hq => ?_⟩
  rw [exec_rdbits_eq t (by decide)] at h'
  refine ⟨serveCommand_readTwo_of_second_not_ok h hr hok h' hq, fun hok' => ?_⟩
  obtain ⟨v, w, hv, hw, hrv, hqw, hexec⟩ :=
    serveCommand_readTwo_of_ok (join := joinU24be) h hr hok h' hq hok'
  have hv : v < 2 ^ 16 := hv (by decide)
  have hw : w < 2 ^ 8 := hw (by decide)
  have hjoin : joinU24be v w = r.value.toNat * 2 ^ 8 + q.value.toNat := by
    rw [hrv, hqw, BitVec.toNat_ofNat, BitVec.toNat_ofNat, joinU24be_eq v w hw, id, id]
    omega
  rw [← hjoin]
  exact hexec

end Sys2Proof.Machine
end

section
/-! PROOFS. 42_marshaling.md: READ_U16_LE and READ_U32_LE at a word boundary (R114). -/

namespace Sys2Proof.Machine

/-- R43, R111: the bytes of a word, swapped, stand as they do in memory. -/
theorem swap16_append (b1 b0 : Byte) :
    swap16 (b1 ++ b0).toNat = b0.toNat * 2 ^ 8 + b1.toNat := by
  have hjoin : (b1 ++ b0).toNat = _ := joinBytes_toNat b1 b0
  rw [hjoin, swap16_eq]
  omega

section
variable {s : State} (hf : s.cur.regs.faulted = false)
include hf

/-- R114: READ_U16_LE right after a load takes the word loaded. -/
theorem exec_rdu16le_full {b0 b1 : Byte} (hrem : s.cur.regs.rem = 16)
    (hword : s.cur.regs.word = b1 ++ b0) :
    exec .rdu16le s = .next (s.answers { s.cur.regs with rem := 0 } .ok
      (b0.toNat * 2 ^ 8 + b1.toNat) [] s.draws) := by
  rw [exec_rdu16le_serving hf, readOne_within swap16 (by rw [hrem]; decide), hrem, hword,
    ← swap16_append]
  simp [Nat.mod_eq_of_lt (b1 ++ b0).isLt]

/-- R114: READ_U16_LE with nothing left in the lookahead loads a word and takes the whole of it. -/
theorem exec_rdu16le_spent (hd : s.cur.session.disturbed = []) (hrem : s.cur.regs.rem = 0)
    (hlen : 2 ≤ s.cur.regs.len) :
    exec .rdu16le s = .next (s.answers
      { word    := byteAt s.mem (s.addrW.wrap (s.cur.regs.ptr + 1))
          ++ byteAt s.mem (s.addrW.wrap s.cur.regs.ptr)
        rem     := 0
        ptr     := s.addrW.wrap (s.cur.regs.ptr + 2)
        len     := s.cur.regs.len - 2
        faulted := false } .ok
      ((byteAt s.mem (s.addrW.wrap s.cur.regs.ptr)).toNat * 2 ^ 8
        + (byteAt s.mem (s.addrW.wrap (s.cur.regs.ptr + 1))).toNat)
      [s.addrW.wrap s.cur.regs.ptr, s.addrW.wrap (s.cur.regs.ptr + 1)] s.draws) := by
  have hclean (t : State) (ht : t.cur.session = s.cur.session) (a : Nat) :
      t.addrW.wrap a ∉ t.cur.session.disturbed := by
    simp [ht, hd]
  rw [exec_rdu16le_serving hf, readOne_crossing swap16 (by rw [hrem]; decide) (Nat.le_refl 16) hlen
    (memRead_clean _ _ (hclean _ rfl _)) (memRead_clean _ _ (hclean _ rfl _)), ← swap16_append,
    hrem, hf]
  simp [Nat.mod_one]

end

/-- R112: READ_U32_LE where two READ_U16_LE complete. -/
theorem exec_rdu32le_of_two_rdu16le {s t u : State} {v w : Nat} (hv : v < 2 ^ 16) (hw : w < 2 ^ 16)
    (h : exec .rdu16le s = .next t) (hr : t.cur.response = some ⟨.ok, BitVec.ofNat 32 v⟩)
    (h' : exec .rdu16le t = .next u) (hq : u.cur.response = some ⟨.ok, BitVec.ofNat 32 w⟩) :
    ∃ x, exec .rdu32le s = .next x ∧
      x.cur.response = some ⟨.ok, BitVec.ofNat 32 (w * 2 ^ 16 + v)⟩ := by
  obtain ⟨-, htwo⟩ := readU32LeIsTwoReadU16Le
  obtain ⟨-, hsecond⟩ := htwo s t _ h hr
  obtain ⟨-, hexec⟩ := hsecond rfl u _ h' hq
  have hjoin : (BitVec.ofNat 32 w).toNat * 2 ^ 16 + (BitVec.ofNat 32 v).toNat = w * 2 ^ 16 + v := by
    rw [BitVec.toNat_ofNat, BitVec.toNat_ofNat]
    omega
  rw [← hjoin]
  exact ⟨_, hexec rfl, rfl⟩

/-- Settles O25: READ_U32_LE is two READ_U16_LE, and the first leaves the lookahead spent at either
word boundary. -/
theorem alignedMarshaling : Obligations.AlignedMarshaling := by
  intro s b0 b1 b2 b3 next hf hd hboundary
  have half (x y : Byte) : x.toNat * 2 ^ 8 + y.toNat < 2 ^ 16 := by omega
  have whole : b2.toNat * 2 ^ 24 + b3.toNat * 2 ^ 16 + b0.toNat * 2 ^ 8 + b1.toNat
      = (b2.toNat * 2 ^ 8 + b3.toNat) * 2 ^ 16 + (b0.toNat * 2 ^ 8 + b1.toNat) := by ring
  rw [whole]
  obtain ⟨hrem, hlen, h0, h1, h2, h3⟩ | ⟨hrem, hlen, hword, h2, h3⟩ := hboundary
  · subst h0 h1 h2 h3
    have hfirst := exec_rdu16le_spent hf hd hrem (by omega)
    have hleft : 2 ≤ s.cur.regs.len - 2 := Nat.le_sub_of_add_le hlen
    refine ⟨⟨_, hfirst, rfl⟩, exec_rdu32le_of_two_rdu16le (half _ _) (half _ _) hfirst rfl
      (exec_rdu16le_spent rfl hd rfl hleft) ?_⟩
    simp [next, State.answers, Instance.answered, Config.AddrWidth.wrap_eq, Nat.add_assoc]
  · subst h2 h3
    have hfirst := exec_rdu16le_full hf hrem hword
    exact ⟨⟨_, hfirst, rfl⟩, exec_rdu32le_of_two_rdu16le (half b0 b1) (half _ _) hfirst rfl
      (exec_rdu16le_spent hf hd rfl hlen) rfl⟩

end Sys2Proof.Machine
end

section
/-! PROOFS. 43_status.md: IS_EMPTY (R120, R122). -/

namespace Sys2Proof.Machine

/-! ### Emptiness -/

/-- R120: no whole word to load, and every unconsumed bit zero. -/
theorem empty_iff (r : Regs) :
    r.empty = true ↔ r.len < 2 ∧ r.word.toNat % 2 ^ r.rem.toNat = 0 := by
  simp [Regs.empty, Regs.noWords, Regs.padZero, field_eq]

/-- R120: nothing is left with the lookahead spent and less than a word to load. -/
theorem empty_of_spent {r : Regs} (hrem : r.rem = 0) (hlen : r.len < 2) : r.empty = true :=
  (empty_iff r).mpr ⟨hlen, by simp [hrem, Nat.mod_one]⟩

/-- R122: a whole word to load is seen. -/
theorem empty_eq_false_of_two_le_len {r : Regs} (hlen : 2 ≤ r.len) : r.empty = false := by
  rw [← Bool.not_eq_true, empty_iff]
  exact fun ⟨hshort, _⟩ => Nat.not_lt.mpr hlen hshort

/-- R122: an unconsumed bit that is set is seen. -/
theorem empty_eq_false_of_unconsumed_bit {r : Regs} {i : Nat} (hi : i < r.rem.toNat)
    (hbit : r.word.getLsbD i = true) : r.empty = false := by
  rw [← Bool.not_eq_true, empty_iff]
  rintro ⟨-, hzero⟩
  have hkept : (r.word.toNat % 2 ^ r.rem.toNat).testBit i = true := by
    rw [Nat.testBit_mod_two_pow, decide_eq_true hi, Bool.true_and]
    exact hbit
  rw [hzero, Nat.zero_testBit] at hkept
  cases hkept

/-! ### IS_EMPTY -/

/-- R120: IS_EMPTY on an engine that is not FAULTED. -/
theorem exec_isempty_serving {s : State} (hf : s.cur.regs.faulted = false) :
    exec .isempty s
      = .next (s.answers s.cur.regs .ok (if s.cur.regs.empty then 1 else 0) [] s.draws) :=
  serveCommand_serving isEmptyRule s hf

/-- What IS_EMPTY responds on an engine that is not FAULTED. -/
theorem exec_isempty_response {s : State} {b : Bool} (hf : s.cur.regs.faulted = false)
    (hempty : s.cur.regs.empty = b) : ∃ t, exec .isempty s = .next t ∧
      t.cur.response = some ⟨.ok, if b then 1 else 0⟩ := by
  refine ⟨_, exec_isempty_serving hf, ?_⟩
  cases b <;> simp [State.answers, Instance.answered, hempty]

/-- Settles O31: the rule's answer is 1 exactly when nothing is left. -/
theorem isEmptyFollowsItsRule : Obligations.IsEmptyFollowsItsRule := by
  refine ⟨rfl, fun s => ⟨serveCommand_answers_fault isEmptyRule, fun hf => ?_⟩⟩
  simp only [exec_isempty_serving hf, empty_iff]

/-- Settles O32: what remains is seen, and reset and a short INIT leave the lookahead spent with
less than a word to load. -/
theorem isEmptySeesEveryRemainingBit : Obligations.IsEmptySeesEveryRemainingBit := by
  refine ⟨fun s hf hremains => ?_, fun s hreset => ?_, fun s base blen hf hblen => ?_⟩
  · have hempty : s.cur.regs.empty = false := by
      obtain ⟨i, hi, hbit⟩ | hlen := hremains
      · exact empty_eq_false_of_unconsumed_bit hi hbit
      · exact empty_eq_false_of_two_le_len hlen
    exact exec_isempty_response hf hempty
  · refine exec_isempty_response ?_ (empty_of_spent ?_ ?_) <;> rw [hreset] <;> decide
  · have hlen : s.addrW.wrap blen < 2 := Nat.lt_of_le_of_lt (Nat.mod_le _ _) hblen
    obtain ⟨t, hinit, hserving, hempty⟩ : ∃ t, exec (.init base blen) s = .next t ∧
        t.cur.regs.faulted = false ∧ t.cur.regs.empty = true :=
      ⟨_, exec_init_serving base blen hf, rfl, empty_of_spent rfl hlen⟩
    obtain ⟨u, hstatus, hresponse⟩ := exec_isempty_response hserving hempty
    exact ⟨t, u, hinit, hstatus, hresponse⟩

end Sys2Proof.Machine
end

section
/-! PROOFS. 60_exceptions.md: the common checks (R138), and an engine that is FAULTED (R136). -/

namespace Sys2Proof.Machine

/-! ### Every command of a FAULTED engine -/

/-- R136: a FAULTED engine turns away every command it can decode. -/
theorem exec_faulted {s : State} (hf : s.cur.regs.faulted = true) (i : Instr) :
    exec i s = .next (s.answers s.cur.regs .fault 0 [] s.draws) := by
  cases i <;> exact serveCommand_answers_fault _ hf

/-- R136, R138: FAULTED is checked before the word. -/
theorem serve_faulted {s : State} (hf : s.cur.regs.faulted = true) (t : Transaction) :
    serve t s = .next (s.answers s.cur.regs .fault 0 [] s.draws) := by
  cases hd : decode t with
  | ok i => rw [serve_ok hd, exec_faulted hf]
  | error c =>
    rw [serve_error hd]
    exact serveCommand_answers_fault faultEntry hf

/-! ### Serve as the rule writes it -/

theorem serveAsWritten_of_faulted {s : State} (hf : s.cur.regs.faulted = true) (t : Transaction) :
    serveAsWritten t s = .next (s.answers s.cur.regs .fault 0 [] s.draws) :=
  if_pos hf

/-- R64 to R67: a word that is not legal fails one of the four checks of the word. -/
theorem serveAsWritten_of_illegalWord {t : Transaction} {s : State}
    (hf : s.cur.regs.faulted = false) (hillegal : ¬ LegalWord t.cmd) :
    serveAsWritten t s = .next (faultEntry (beginCommand s)) := by
  simp only [serveAsWritten, hf, Bool.false_eq_true, if_false]
  split
  · rfl
  split
  · rfl
  split
  · rfl
  split
  · rfl
  next hopc hrsv hstray hcount =>
    refine absurd ?_ hillegal
    rw [LegalWord]
    omega

/-- R63: a word that passes the checks runs the rule its opcode names. -/
theorem serveAsWritten_of_decode_ok {t : Transaction} {i : Instr} {s : State}
    (hf : s.cur.regs.faulted = false) (hd : decode t = .ok i) :
    serveAsWritten t s = exec i s := by
  obtain ⟨hlow, hhigh, hrsv, hcount, hstray⟩ := (exists_decode_ok_iff t).mp ⟨i, hd⟩
  obtain ⟨hselect, -, -, -⟩ := (decode_ok_iff t i).mp hd
  have hcnt : BitVec.ofNat 5 (t.cmd.toNat / 16 % 32) = t.cnt := by
    rw [← cnt_toNat, BitVec.ofNat_toNat, BitVec.setWidth_eq]
  simp only [serveAsWritten, ← opc_toNat] at hlow hhigh hcount hstray ⊢
  rw [if_neg (by simp [hf]), if_neg (by omega), if_neg (by omega), if_neg (by omega),
    if_neg (by omega), hcnt]
  obtain ⟨hopc, rfl⟩ | ⟨hopc, rfl⟩ | ⟨hopc, rfl⟩ | ⟨hopc, rfl⟩ | ⟨hopc, rfl⟩ | ⟨hopc, rfl⟩ |
    ⟨hopc, rfl⟩ | ⟨hopc, rfl⟩ := selectCommand_cases hselect <;>
    rw [hopc] <;> rfl

/-- Settles O8: FAULTED, a word that fails a check, and a word that names a command. -/
theorem serveFollowsTheCommonChecks : Obligations.ServeFollowsTheCommonChecks := by
  intro t s
  cases hf : s.cur.regs.faulted with
  | true => rw [serve_faulted hf, serveAsWritten_of_faulted hf]
  | false =>
    by_cases hlegal : LegalWord t.cmd
    · obtain ⟨i, hd⟩ := (exists_decode_ok_iff t).mpr hlegal
      rw [serve_ok hd, serveAsWritten_of_decode_ok hf hd]
    · rw [serve_illegalWord hlegal hf, serveAsWritten_of_illegalWord hf hlegal]

/-! ### Until reset -/

/-- R9, R145: no step removes an instance from the system. -/
theorem exists_inst_of_step {s t : State} {k : Nat} {e : Instance} (h : step s = .next t)
    (he : s.inst k = some e) : ∃ e', t.inst k = some e' := by
  have putBack {j : Nat} {u : State} (hj : s.hasInst j = true)
      (ho : u.others = (s.popInput.swap j).others) : ∃ e', (u.swap j).inst k = some e' := by
    rw [inst_swap_of_others (by exact hj) ho, popInput_inst, he]
    split <;> exact ⟨_, rfl⟩
  obtain ⟨-, rfl⟩ | ⟨j, tr, -, u, -, hj, hu, rfl⟩ | ⟨j, -, -, hj, rfl⟩ |
    ⟨j, tr, -, u, -, hj, hu, rfl⟩ | ⟨a, b, -, -, rfl⟩ | ⟨-, -, rfl⟩ := step_cases h
  · exact ⟨e, he⟩
  · exact putBack hj (serve_serviceFrame hu).others
  · exact putBack hj rfl
  · exact putBack hj (serve_serviceFrame hu).others
  · exact ⟨_, by rw [inst_hostWrite, popInput_inst, he, Option.map_some]⟩
  · exact ⟨e, by rw [inst_hostPublish, popInput_inst, he]⟩

/-- Settles O10: a command to a FAULTED engine is turned away, and an event that is neither a command
to it nor its reset writes no register of it. -/
theorem faultedEngineAnswersFaultUntilReset :
    Obligations.FaultedEngineAnswersFaultUntilReset := by
  refine ⟨fun s hf => ⟨serve_faulted hf, exec_faulted hf⟩, fun s u k e h he hf => ?_⟩
  obtain ⟨e', he'⟩ := exists_inst_of_step h he
  obtain rfl | ⟨tr, rest, v, -, hv, rfl⟩ | ⟨rest, hin, -⟩ | ⟨tr, rest, -, hin, -, -⟩ |
    ⟨a, b, rest, -, rfl⟩ := step_inst_cases h he he'
  · exact .inl ⟨_, he', rfl⟩
  · have hcur : (s.popInput.swap k).cur = e := swap_cur ((popInput_inst k s).trans he)
    rw [serve_faulted (by rw [hcur, hf]), hcur] at hv
    cases hv
    exact .inl ⟨_, he', rfl⟩
  · exact .inr (.inl ⟨rest, hin⟩)
  · exact .inr (.inr ⟨tr, rest, hin⟩)
  · exact .inl ⟨_, he', rfl⟩

end Sys2Proof.Machine
end

section
/-! PROOFS. 60_exceptions.md: when a command underflows (R131), and what it leaves (R132). -/

namespace Sys2Proof.Machine

/-! ### What a command responds -/

section
variable {n k : Nat}

/-- R91, R131: a command of one ReadBits step underflows where it is short of bits, and succeeds
elsewhere. -/
theorem readOne_response (f : Nat → Nat) (s : State) (hn : n ≤ 16) :
    (s.cur.regs.available < n ∧ (readOne n f s).cur.response = some ⟨.underflow, 0⟩) ∨
    (n ≤ s.cur.regs.available ∧ ∃ v, (readOne n f s).cur.response = some ⟨.ok, v⟩) := by
  cases hread : readBits n s with
  | none =>
    rw [readOne_of_none f hread]
    exact .inl ⟨(readBits_eq_none_iff_available s hn).mp hread, rfl⟩
  | some p =>
    rw [readOne_of_some f hread]
    have hleft := available_readBits hread hn
    exact .inr ⟨by omega, _, rfl⟩

/-- R110, R131: a command of two ReadBits steps underflows where it is short of bits for both. -/
theorem readTwo_response (join : Nat → Nat → Nat) (s : State) (hn : n ≤ 16) (hk : k ≤ 16) :
    (s.cur.regs.available < n + k ∧
      (readTwo n k join s).cur.response = some ⟨.underflow, 0⟩) ∨
    (n + k ≤ s.cur.regs.available ∧
      ∃ v, (readTwo n k join s).cur.response = some ⟨.ok, v⟩) := by
  cases hread : readBits n s with
  | none =>
    have hshort := (readBits_eq_none_iff_available s hn).mp hread
    rw [readTwo_of_none k join hread]
    exact .inl ⟨by omega, rfl⟩
  | some p =>
    have hleft := available_readBits hread hn
    rw [readTwo_of_some k join hread, ← hleft, Nat.add_comm n k, Nat.add_lt_add_iff_right,
      Nat.add_le_add_iff_right]
    exact readOne_response (join p.1) p.2 hk

end

/-- R131: a reading command underflows where REM and the whole words left hold fewer bits than it
takes, and succeeds elsewhere. -/
theorem exec_reading_response {i : Instr} {n : Nat} {s : State} (hw : i.wellFormed = true)
    (hi : i.readWidth = some n) (hf : s.cur.regs.faulted = false) :
    ∃ t, exec i s = .next t ∧
      ((s.cur.regs.available < n ∧ t.cur.response = some ⟨.underflow, 0⟩) ∨
        (n ≤ s.cur.regs.available ∧ ∃ v, t.cur.response = some ⟨.ok, v⟩)) := by
  cases i with
  | init | pkbits | isempty => cases hi
  | rdbit =>
    cases hi
    exact ⟨_, serveCommand_serving _ s hf, readOne_response id (beginCommand s) (by decide)⟩
  | rdbits c =>
    cases hi
    have hcount := toNat_le_of_rdbits_wellFormed hw
    exact ⟨_, exec_rdbits_serving hf hcount, readOne_response id (beginCommand s) hcount⟩
  | rdu16le =>
    cases hi
    exact ⟨_, exec_rdu16le_serving hf, readOne_response swap16 (beginCommand s) (by decide)⟩
  | rdu32le =>
    cases hi
    exact ⟨_, serveCommand_serving _ s hf,
      readTwo_response (n := 16) (k := 16) joinU32le (beginCommand s) (by decide) (by decide)⟩
  | rdu24be =>
    cases hi
    exact ⟨_, serveCommand_serving _ s hf,
      readTwo_response (n := 16) (k := 8) joinU24be (beginCommand s) (by decide) (by decide)⟩

/-- R80, R95, R120: INIT, PEEK_BITS and IS_EMPTY succeed. -/
theorem exec_nonreading_response {i : Instr} {s : State} (hw : i.wellFormed = true)
    (hi : i.readWidth = none) (hf : s.cur.regs.faulted = false) :
    ∃ t v, exec i s = .next t ∧ t.cur.response = some ⟨.ok, v⟩ := by
  cases i with
  | rdbit | rdbits | rdu16le | rdu32le | rdu24be => cases hi
  | init base blen => exact ⟨_, _, exec_init_serving base blen hf, rfl⟩
  | pkbits c => exact ⟨_, _, exec_pkbits_serving hf (of_decide_eq_true hw), rfl⟩
  | isempty => exact ⟨_, _, exec_isempty_serving hf, rfl⟩

/-- R67: an ill-formed count takes the fault entry. -/
theorem exec_illFormed {i : Instr} {s : State} (hw : i.wellFormed = false)
    (hf : s.cur.regs.faulted = false) :
    exec i s = .next (s.answers { s.cur.regs with faulted := true } .fault 0 [] s.draws) := by
  cases i with
  | init | rdbit | rdu16le | rdu32le | rdu24be | isempty => cases hw
  | rdbits c | pkbits c =>
    exact serveCommand_withCount_illegal _ hf (Nat.lt_of_not_le (of_decide_eq_false hw))

/-- Settles O19: reading commands by the bits left, and the others succeed. -/
theorem underflowExactlyWhenBitsAreMissing : Obligations.UnderflowExactlyWhenBitsAreMissing := by
  intro i s hw hf
  cases hi : i.readWidth with
  | none =>
    obtain ⟨t, v, hexec, hr⟩ := exec_nonreading_response hw hi hf
    exact ⟨t, _, hexec, hr, by simp⟩
  | some n =>
    obtain ⟨t, hexec, ⟨hshort, hr⟩ | ⟨henough, v, hr⟩⟩ := exec_reading_response hw hi hf
    · exact ⟨t, _, hexec, hr, by simpa using hshort⟩
    · exact ⟨t, _, hexec, hr, by simpa using henough⟩

/-! ### After an underflow -/

/-- R131, R138: what an underflow says of the command and the engine before it. -/
theorem reading_of_underflow {i : Instr} {s t : State} {v : BitVec 32} (h : exec i s = .next t)
    (hr : t.cur.response = some ⟨.underflow, v⟩) :
    s.cur.regs.faulted = false ∧ i.wellFormed = true ∧
      ∃ n, i.readWidth = some n ∧ s.cur.regs.available < n := by
  have hf : s.cur.regs.faulted = false := by
    rw [← Bool.not_eq_true]
    intro hfaulted
    rw [exec_faulted hfaulted] at h
    cases h
    cases hr
  have hw : i.wellFormed = true := by
    rw [← Bool.not_eq_false]
    intro hill
    rw [exec_illFormed hill hf] at h
    cases h
    cases hr
  obtain ⟨u, r, hexec, hresponse, hiff⟩ := underflowExactlyWhenBitsAreMissing i s hw hf
  rw [hexec] at h
  cases h
  rw [hr] at hresponse
  cases hresponse
  exact ⟨hf, hw, hiff.mp rfl⟩

/-- R91: a READ_BITS that succeeds leaves FAULTED clear. -/
theorem rdbits_keeps_serving {c : Count} {s t : State} {v : BitVec 32} (hc : c.toNat ≤ 16)
    (h : exec (.rdbits c) s = .next t) (hr : t.cur.response = some ⟨.ok, v⟩) :
    t.cur.regs.faulted = false := by
  rw [exec_rdbits_eq s hc] at h
  obtain ⟨hf, w, t₁, hread, rfl, -⟩ := serveCommand_readOne_ok h hr rfl
  obtain ⟨-, -, -, -, -, -, -, hfaulted⟩ := readBits_frame hread
  exact hfaulted.trans hf

/-- R92, R93, R110 to R113: a reading command takes its bits in one ReadBits step, or is READ_U32_LE
or READ_U24_BE. -/
theorem readWidth_cases {i : Instr} {n : Nat} (hw : i.wellFormed = true)
    (hi : i.readWidth = some n) :
    (i.firstRead = some n ∧ n ≤ 16) ∨ (i = .rdu32le ∧ n = 32 ∨ i = .rdu24be ∧ n = 24) := by
  cases i with
  | init | pkbits | isempty => cases hi
  | rdbit | rdu16le => cases hi; exact .inl ⟨rfl, by decide⟩
  | rdbits c => cases hi; exact .inl ⟨rfl, toNat_le_of_rdbits_wellFormed hw⟩
  | rdu32le => cases hi; exact .inr (.inl ⟨rfl, rfl⟩)
  | rdu24be => cases hi; exact .inr (.inr ⟨rfl, rfl⟩)

/-- R91, R110: an underflow keeps the state before the command, or after the first step of
READ_U32_LE and READ_U24_BE, which is that of a READ_BITS of 16. -/
theorem state_of_underflow {i : Instr} {s t : State} (h : exec i s = .next t)
    (hr : t.cur.response = some ⟨.underflow, 0⟩) :
    t = s.answers s.cur.regs .underflow 0 [] s.draws ∨
      (i = .rdu32le ∨ i = .rdu24be) ∧ ∃ u v, exec (.rdbits 16) s = .next u ∧
        u.cur.response = some ⟨.ok, v⟩ ∧
        t = u.answers u.cur.regs .underflow 0 u.cur.reads u.draws := by
  obtain ⟨hf, hw, n, hi, hshort⟩ := reading_of_underflow h hr
  obtain ⟨hone, hn⟩ | htwo := readWidth_cases hw hi
  · obtain ⟨hrem, hlen⟩ := (readBits_eq_none_iff n s).mp
      ((readBits_eq_none_iff_available s hn).mpr hshort)
    rw [exec_underflow hw hone hf hrem hlen] at h
    exact .inl (Host.Outcome.next.inj h).symm
  · obtain ⟨hneither, hsecond, -⟩ := secondUnderflowKeepsTheFirstStep i n s htwo hf
    obtain ⟨u, hu, ⟨ha, -⟩ | ⟨ha, v, hv⟩⟩ :=
      exec_reading_response (i := .rdbits 16) (n := 16) rfl rfl hf
    · rw [hneither ha] at h
      exact .inl (Host.Outcome.next.inj h).symm
    · obtain ⟨u', hu', hexec⟩ := hsecond ha hshort
      obtain rfl := Host.Outcome.next.inj (hu.symm.trans hu')
      rw [hexec] at h
      exact .inr ⟨htwo.imp And.left And.left, u, v, hu, hv, (Host.Outcome.next.inj h).symm⟩

/-- R98, R131: a reading command whose bits REM holds succeeds. -/
theorem exec_reading_ok_of_le_rem {i : Instr} {n : Nat} {s : State} (hw : i.wellFormed = true)
    (hi : i.readWidth = some n) (hf : s.cur.regs.faulted = false)
    (hrem : n ≤ s.cur.regs.rem.toNat) :
    ∃ t v, exec i s = .next t ∧ t.cur.response = some ⟨.ok, v⟩ := by
  have henough : n ≤ s.cur.regs.available := Nat.le_add_right_of_le hrem
  obtain ⟨t, hexec, ⟨hshort, -⟩ | ⟨-, v, hr⟩⟩ := exec_reading_response hw hi hf
  · exact absurd henough (Nat.not_le.mpr hshort)
  · exact ⟨t, v, hexec, hr⟩

/-- Settles O20: either state an underflow leaves is one of an engine that is not FAULTED, which
serves INIT and every read within REM. -/
theorem underflowIsRecoverable : Obligations.UnderflowIsRecoverable := by
  intro i s t h hr
  have hstate := state_of_underflow h hr
  have hf : t.cur.regs.faulted = false := by
    obtain ⟨hserving, -⟩ := reading_of_underflow h hr
    obtain hsame | ⟨-, u, v, hu, hv, hfirst⟩ := hstate
    · rw [hsame]
      exact hserving
    · rw [hfirst]
      have hkept : u.cur.regs.faulted = false :=
        rdbits_keeps_serving (c := 16) (by decide) hu hv
      exact hkept
  exact ⟨hf, hstate, fun base blen => ⟨_, exec_init_serving base blen hf, rfl⟩,
    fun j n hw hi => exec_reading_ok_of_le_rem hw hi hf⟩

end Sys2Proof.Machine
end

section
/-! PROOFS. 70_reset_and_hazards.md: every command completes within its bound of byte reads (R157). -/

namespace Sys2Proof.Machine

/-! ### The bytes an operation reads -/

@[simp] theorem memRead_reads_length (a : Nat) (s : State) :
    (memRead a s).2.cur.reads.length = s.cur.reads.length + 1 := by
  obtain ⟨d, hd⟩ := memRead_frame a s
  simp [hd]

@[simp] theorem readWord_reads_length (a : Nat) (s : State) :
    (readWord a s).2.cur.reads.length = s.cur.reads.length + 2 := by
  obtain ⟨d, hd⟩ := readWord_frame a s
  simp [hd]

@[simp] theorem loadWord_reads_length (s : State) :
    (loadWord s).cur.reads.length = s.cur.reads.length + 2 :=
  readWord_reads_length s.cur.regs.ptr s

/-- R91: a ReadBits step loads one word or none. -/
theorem readBits_reads_length_le {n v : Nat} {s t : State} (h : readBits n s = some (v, t)) :
    t.cur.reads.length ≤ s.cur.reads.length + 2 := by
  obtain ⟨-, -, rfl⟩ | ⟨-, -, -, rfl⟩ := readBits_cases h
  · exact Nat.le_add_right _ 2
  · rw [setRem_reads, loadWord_reads_length]

theorem readOne_reads_length_le (n : Nat) (f : Nat → Nat) (s : State) :
    (readOne n f s).cur.reads.length ≤ s.cur.reads.length + 2 := by
  cases h : readBits n s with
  | none =>
    rw [readOne_of_none f h]
    exact Nat.le_add_right _ 2
  | some vt =>
    rw [readOne_of_some f h, respond_reads]
    exact readBits_reads_length_le h

/-- R110: two ReadBits steps, the second of them a command of one. -/
theorem readTwo_reads_length_le (n k : Nat) (f : Nat → Nat → Nat) (s : State) :
    (readTwo n k f s).cur.reads.length ≤ s.cur.reads.length + 4 := by
  cases h : readBits n s with
  | none =>
    rw [readTwo_of_none k f h]
    exact Nat.le_add_right _ 4
  | some vt =>
    obtain ⟨v, t⟩ := vt
    rw [readTwo_of_some k f h]
    have hfirst := readBits_reads_length_le h
    have hsecond := readOne_reads_length_le k (f v) t
    omega

/-- R94, R100: a peek reads the bytes there are of the next word. -/
theorem peekWord_reads_length_le (s : State) :
    (peekWord s).2.cur.reads.length ≤ s.cur.reads.length + 2 := by
  unfold peekWord
  split
  · exact Nat.le_add_right _ 2
  · simp
  · simp

theorem peekRule_reads_length_le (n : Nat) (s : State) :
    (peekRule n s).cur.reads.length ≤ s.cur.reads.length + 2 := by
  rcases Nat.lt_or_ge s.cur.regs.rem.toNat n with h | h
  · rw [peekRule, peekBits_beyond h]
    exact peekWord_reads_length_le s
  · rw [peekRule, peekBits_within h]
    exact Nat.le_add_right _ 2

/-! ### Every command -/

/-- A count above 16 takes the fault entry, which reads nothing (R67, R135). -/
theorem withCount_reads_length_le {rule : Nat → State → State} {b : Nat} {s : State}
    (hrule : ∀ n, (rule n s).cur.reads.length ≤ s.cur.reads.length + b) (c : Count) :
    (withCount c rule s).cur.reads.length ≤ s.cur.reads.length + b := by
  unfold withCount
  split
  · exact hrule _
  · exact Nat.le_add_right _ b

/-- A command reads what its rule reads, and nothing where the engine is FAULTED (R136). -/
theorem serveCommand_reads_length_le {rule : State → State} {b : Nat}
    (hrule : ∀ s, (rule s).cur.reads.length ≤ s.cur.reads.length + b) {s t : State}
    (h : serveCommand rule s = .next t) : t.cur.reads.length ≤ b := by
  obtain ⟨-, rfl⟩ | ⟨-, rfl⟩ := serveCommand_cases h
  · exact Nat.zero_le b
  · simpa using hrule (beginCommand s)

/-- R157: the table of bounds. -/
theorem exec_reads_length_le {i : Instr} {s t : State} (h : exec i s = .next t) :
    t.cur.reads.length ≤ i.maxReads := by
  cases i with
  | init base blen =>
    exact serveCommand_reads_length_le (rule := initRule base blen) (fun _ => Nat.le_refl _) h
  | rdbit => exact serveCommand_reads_length_le (readOne_reads_length_le 1 id) h
  | rdbits c =>
    exact serveCommand_reads_length_le
      (fun s => withCount_reads_length_le (readOne_reads_length_le · id s) c) h
  | pkbits c =>
    exact serveCommand_reads_length_le
      (fun s => withCount_reads_length_le (peekRule_reads_length_le · s) c) h
  | rdu16le => exact serveCommand_reads_length_le (readOne_reads_length_le 16 swap16) h
  | rdu32le => exact serveCommand_reads_length_le (readTwo_reads_length_le 16 16 joinU32le) h
  | rdu24be => exact serveCommand_reads_length_le (readTwo_reads_length_le 16 8 joinU24be) h
  | isempty =>
    exact serveCommand_reads_length_le (rule := isEmptyRule) (fun _ => Nat.le_refl _) h

/-- R70: a legal command on an engine that is not FAULTED responds, and not with FAULT. -/
theorem exec_response_ne_fault {i : Instr} {s : State} (hw : i.wellFormed = true)
    (hf : s.cur.regs.faulted = false) :
    ∃ t r, exec i s = .next t ∧ t.cur.response = some r ∧ r.status ≠ .fault := by
  cases hi : i.readWidth with
  | none =>
    obtain ⟨t, v, hexec, hr⟩ := exec_nonreading_response hw hi hf
    exact ⟨t, _, hexec, hr, by simp⟩
  | some n =>
    obtain ⟨t, hexec, ⟨-, hr⟩ | ⟨-, v, hr⟩⟩ := exec_reading_response hw hi hf <;>
      exact ⟨t, _, hexec, hr, by simp⟩

/-- R157: every command responds, and one answered FAULT has read nothing: it was turned away, or its
count is ill-formed. -/
theorem exec_response (i : Instr) (s : State) :
    ∃ t r, exec i s = .next t ∧ t.cur.response = some r ∧
      (r.status = .fault → t.cur.reads = []) := by
  cases hf : s.cur.regs.faulted with
  | true => exact ⟨_, _, exec_faulted hf i, rfl, fun _ => rfl⟩
  | false =>
    cases hw : i.wellFormed with
    | false => exact ⟨_, _, exec_illFormed hw hf, rfl, fun _ => rfl⟩
    | true =>
      obtain ⟨t, r, hexec, hr, hstatus⟩ := exec_response_ne_fault hw hf
      exact ⟨t, r, hexec, hr, fun hfault => absurd hfault hstatus⟩

/-- Settles O36: the response and the bound of each command. -/
theorem everyCommandCompletesWithinItsReads :
    Obligations.EveryCommandCompletesWithinItsReads := by
  intro i s
  obtain ⟨t, r, hexec, hr, hfault⟩ := exec_response i s
  exact ⟨t, r, hexec, hr, exec_reads_length_le hexec, hfault⟩

end Sys2Proof.Machine
end

section
/-! PROOFS. 70_reset_and_hazards.md: after reset the buffer is empty (R151). -/

namespace Sys2Proof.Machine

/-- R94, R100: with no bit and no byte left, every bit a peek answers is a zero of the padding. -/
theorem peekRule_of_nothing_left {n : Nat} {s : State} (hn : n ≤ 16) (hrem : s.cur.regs.rem = 0)
    (hlen : s.cur.regs.len = 0) :
    peekRule n (beginCommand s) = s.answers s.cur.regs .ok 0 [] s.draws := by
  rcases Nat.eq_zero_or_pos n with rfl | hpos
  · rw [peekRule_within (Nat.zero_le _), Nat.pow_zero, Nat.mod_one]
  · have hnext : peekWord (beginCommand s) = (0, beginCommand s) := peekWord_of_len_zero hlen
    rw [peekRule_beyond (by simpa [hrem] using hpos) hn hnext]
    simp [hrem, Nat.mod_one]

/-- R92, R93, R110 to R113: a command that takes any bits takes some in its first ReadBits step. -/
theorem exists_firstRead_pos {i : Instr} {n : Nat} (hw : i.wellFormed = true)
    (hi : i.readWidth = some n) (hn : 0 < n) : ∃ m, i.firstRead = some m ∧ 0 < m := by
  obtain ⟨hfirst, -⟩ | ⟨rfl, -⟩ | ⟨rfl, -⟩ := readWidth_cases hw hi
  · exact ⟨n, hfirst, hn⟩
  · exact ⟨16, rfl, by decide⟩
  · exact ⟨16, rfl, by decide⟩

/-- Settles O41: the reset registers hold no bit and leave no byte to load. -/
theorem afterResetTheBufferIsEmpty : Obligations.AfterResetTheBufferIsEmpty := by
  intro s hreset
  have hf : s.cur.regs.faulted = false := by rw [hreset]
  have hrem : s.cur.regs.rem = 0 := by rw [hreset]
  have hlen : s.cur.regs.len = 0 := by rw [hreset]
  obtain ⟨hcountZero, -⟩ := countZeroChangesNothing s hf
  refine ⟨?_, hcountZero, fun c hc => ?_, fun i n hw hi hn => ?_⟩
  · have hempty : s.cur.regs.empty = true := empty_of_spent hrem (by omega)
    rw [exec_isempty_serving hf, hempty, if_pos rfl]
  · rw [exec_pkbits_serving hf hc, peekRule_of_nothing_left hc hrem hlen]
  · obtain ⟨m, hfirst, hpos⟩ := exists_firstRead_pos hw hi hn
    exact exec_underflow hw hfirst hf (by simpa [hrem] using hpos) (by omega)

end Sys2Proof.Machine
end

section
/-! PROOFS. 30_encoding.md: encoding and decoding are inverse (R61, R63, R69, R72). -/

namespace Sys2Proof

/-- R61, R63: what the encoder puts in the fields, for every command. -/
theorem encodedFields (i : Instr) : Laws.EncodedFields.Statement i := by
  cases i with
  | init base blen => exact Laws.EncodedFields.init base blen
  | rdbit => exact Laws.EncodedFields.rdbit
  | rdbits c => exact Laws.EncodedFields.rdbits c
  | pkbits c => exact Laws.EncodedFields.pkbits c
  | rdu16le => exact Laws.EncodedFields.rdu16le
  | rdu32le => exact Laws.EncodedFields.rdu32le
  | rdu24be => exact Laws.EncodedFields.rdu24be
  | isempty => exact Laws.EncodedFields.isempty

/-- R62, R67: the count of a well-formed command is encoded as it is, and is at most 16. -/
theorem encode_cnt_le {i : Instr} (hw : i.wellFormed = true)
    (huses : usesCount (encode i).opc = true) : (encode i).cnt.toNat ≤ 16 := by
  cases i with
  | rdbits c | pkbits c =>
    rw [encode, cnt_commandWord]
    exact of_decide_eq_true hw
  | init | rdbit | rdu16le | rdu32le | rdu24be | isempty =>
    rw [encode, opc_commandWord] at huses
    cases huses

/-- Settles O2: the fields the encoder fills select the command back and pass the decoder's checks. -/
theorem decodeOfEncodeIsTheInstruction : Obligations.DecodeOfEncodeIsTheInstruction := by
  intro i hw
  obtain ⟨hrsv, hstray, hselect⟩ := encodedFields i
  exact (decode_ok_iff _ i).mpr ⟨hselect, hrsv, hstray, encode_cnt_le hw⟩

/-- R61, R63: the encoder makes the command word of the fields the command was selected by. -/
theorem encode_cmd_of_selectCommand {opc : BitVec 4} {cnt : Count} {base blen : Nat} {i : Instr}
    (h : selectCommand opc cnt base blen = some i) (hstray : usesCount opc = false → cnt = 0) :
    (encode i).cmd = commandWord cnt opc := by
  obtain ⟨rfl, rfl⟩ | ⟨rfl, rfl⟩ | ⟨rfl, rfl⟩ | ⟨rfl, rfl⟩ | ⟨rfl, rfl⟩ | ⟨rfl, rfl⟩ |
    ⟨rfl, rfl⟩ | ⟨rfl, rfl⟩ := selectCommand_cases h
  case inr.inr.inl | inr.inr.inr.inl => rfl
  all_goals rw [hstray rfl]; rfl

theorem encode_cmd_of_decode {t : Transaction} {i : Instr} (h : decode t = .ok i) :
    (encode i).cmd = t.cmd := by
  obtain ⟨hselect, hrsv, hstray, -⟩ := (decode_ok_iff t i).mp h
  rw [encode_cmd_of_selectCommand hselect hstray, cmd_eq_commandWord t hrsv]

/-- R67: the decoder lets no count above 16 through. -/
theorem wellFormed_of_decode {t : Transaction} {i : Instr} (h : decode t = .ok i) :
    i.wellFormed = true := by
  obtain ⟨hselect, -, -, hcount⟩ := (decode_ok_iff t i).mp h
  obtain ⟨-, rfl⟩ | ⟨-, rfl⟩ | ⟨hopc, rfl⟩ | ⟨hopc, rfl⟩ | ⟨-, rfl⟩ | ⟨-, rfl⟩ | ⟨-, rfl⟩ |
    ⟨-, rfl⟩ := selectCommand_cases hselect
  case inr.inr.inl | inr.inr.inr.inl => exact decide_eq_true (hcount (by rw [hopc]; rfl))
  all_goals rfl

/-- R62, R63: INIT's operands are the side operands. -/
theorem operands_of_decode_init {t : Transaction} {base blen : Nat}
    (h : decode t = .ok (.init base blen)) : base = t.base ∧ blen = t.blen := by
  obtain ⟨hselect, -⟩ := (decode_ok_iff t _).mp h
  have hinit := selectCommand_cases hselect
  simp only [Instr.init.injEq, reduceCtorEq, and_false, or_false] at hinit
  exact hinit.2

/-- Settles O3: the opcode selects the command, and the word is the one made of its fields. -/
theorem decodedCommandEncodesToItsWord : Obligations.DecodedCommandEncodesToItsWord := by
  intro t i h
  have hcmd := encode_cmd_of_decode h
  refine ⟨wellFormed_of_decode h, hcmd, ?_⟩
  rintro ⟨base, blen, rfl⟩
  obtain ⟨rfl, rfl⟩ := operands_of_decode_init h
  rw [Machine.encode_init] at hcmd ⊢
  rw [show (0x00000001 : BitVec 32) = t.cmd from hcmd]

/-- R63, R68: a transaction decodes to a well-formed command exactly when it carries its word, and
beside it, for INIT, the operands. -/
theorem decode_eq_ok_iff_encode (t : Transaction) (i : Instr) :
    decode t = .ok i ↔ i.wellFormed = true ∧ (encode i).cmd = t.cmd ∧
      (∀ base blen, i = .init base blen → base = t.base ∧ blen = t.blen) := by
  constructor
  · intro h
    refine ⟨wellFormed_of_decode h, encode_cmd_of_decode h, ?_⟩
    rintro base blen rfl
    exact operands_of_decode_init h
  · rintro ⟨hw, hcmd, hinit⟩
    have hdecode := decodeOfEncodeIsTheInstruction i hw
    cases i with
    | init base blen =>
      obtain ⟨rfl, rfl⟩ := hinit base blen rfl
      rw [Machine.encode_init] at hcmd hdecode
      rwa [show (0x00000001 : BitVec 32) = t.cmd from hcmd] at hdecode
    | rdbit | rdbits | pkbits | rdu16le | rdu32le | rdu24be | isempty =>
      rw [← hdecode]
      refine Machine.decode_eq_of_cmd_eq hcmd.symm ?_
      rw [← hcmd]
      simp [encode, commandWord_toNat]

/-- R61: three fields side by side, as a number. -/
theorem append_fields_toNat (rsv : BitVec 23) (cnt : Count) (opc : BitVec 4) :
    (rsv ++ cnt ++ opc).toNat = rsv.toNat * 512 + cnt.toNat * 16 + opc.toNat := by
  rw [BitVec.toNat_append, BitVec.toNat_append, Machine.shiftLeft_or _ _ 4 opc.isLt,
    Machine.shiftLeft_or _ _ 5 cnt.isLt]
  omega

/-- R61: a word is its three fields side by side. -/
theorem cmd_eq_append_fields (t : Transaction) : t.cmd = t.rsv ++ t.cnt ++ t.opc := by
  apply BitVec.eq_of_toNat_eq
  rw [append_fields_toNat, rsv_toNat, cnt_toNat, opc_toNat]
  omega

/-- R63: the mask of the commands with a count keeps RSV and OPC. -/
theorem and_countMask_toNat (t : Transaction) :
    (t.cmd &&& 0xFFFFFE0F).toNat = t.cmd.toNat / 512 * 512 + t.cmd.toNat % 16 := by
  have hmask : (0xFFFFFE0F : BitVec 32) = BitVec.allOnes 23 ++ 0#5 ++ BitVec.allOnes 4 := by decide
  have hkept : t.cmd &&& 0xFFFFFE0F = t.rsv ++ 0#5 ++ t.opc := by
    rw [hmask, cmd_eq_append_fields, BitVec.and_append, BitVec.and_append, BitVec.and_allOnes,
      BitVec.and_allOnes, BitVec.and_zero]
  rw [hkept, append_fields_toNat, rsv_toNat, opc_toNat, BitVec.toNat_zero,
    Nat.zero_mul, Nat.add_zero]

/-- R63: a word is that of a command with a count exactly when it matches under the mask and its CNT
is the count. -/
theorem commandWord_eq_iff_and_countMask (t : Transaction) (cnt : Count) (opc : BitVec 4) :
    commandWord cnt opc = t.cmd ↔ t.cmd &&& 0xFFFFFE0F = opc.setWidth 32 ∧
      cnt.toNat = t.cmd.toNat / 16 % 32 := by
  have hopc := opc.isLt
  have hcnt := cnt.isLt
  rw [BitVec.toNat_eq, BitVec.toNat_eq, commandWord_toNat, and_countMask_toNat,
    BitVec.toNat_setWidth]
  omega

/-- R63: the mask of the commands without a count keeps the whole word. -/
theorem and_wholeMask (cmd : BitVec 32) : cmd &&& 0xFFFFFFFF = cmd :=
  BitVec.and_allOnes

/-- R63: a command without operands is selected by its whole word. -/
theorem decode_eq_ok_iff_wholeMask {i : Instr} (hw : i.wellFormed = true)
    (hi : ∀ base blen, i ≠ .init base blen) (t : Transaction) :
    decode t = .ok i ↔ t.cmd &&& 0xFFFFFFFF = (encode i).cmd := by
  rw [decode_eq_ok_iff_encode, and_wholeMask, eq_comm (a := t.cmd)]
  simp [hw, hi]

/-- R63, R67: a command with a count is selected by its word under the mask, and its count is CNT. -/
theorem decode_eq_ok_iff_countMask {i : Instr} {c : Count} {opc : BitVec 4}
    (hw : i.wellFormed = Count.legal c) (hword : (encode i).cmd = commandWord c opc)
    (hi : ∀ base blen, i ≠ .init base blen) (t : Transaction) :
    decode t = .ok i ↔ t.cmd &&& 0xFFFFFE0F = opc.setWidth 32 ∧
      c.toNat = t.cmd.toNat / 16 % 32 ∧ c.toNat ≤ 16 := by
  rw [decode_eq_ok_iff_encode, hword, commandWord_eq_iff_and_countMask, hw, Count.legal,
    decide_eq_true_eq]
  simp only [hi, false_implies, implies_true, and_true]
  tauto

/-- Settles O4: a command is decoded from its word, and the word is read off under its mask. -/
theorem commandsAreSelectedByMatchAndMask : Obligations.CommandsAreSelectedByMatchAndMask := by
  intro t
  have plain {i : Instr} (hw : i.wellFormed = true) (hi : ∀ base blen, i ≠ .init base blen) :=
    decode_eq_ok_iff_wholeMask hw hi t
  refine ⟨fun base blen => ?_, plain rfl nofun,
    fun c => decode_eq_ok_iff_countMask (i := .rdbits c) (opc := 0x3) rfl rfl nofun t,
    fun c => decode_eq_ok_iff_countMask (i := .pkbits c) (opc := 0x4) rfl rfl nofun t,
    plain rfl nofun, plain rfl nofun, plain rfl nofun, plain rfl nofun⟩
  rw [decode_eq_ok_iff_encode, and_wholeMask, Machine.encode_init, eq_comm (a := t.cmd)]
  simp [Instr.wellFormed]

/-- Settles O5: what the fields must be for the decoder is what the rules say of the word. -/
theorem decoderAcceptsExactlyTheLegalWords : Obligations.DecoderAcceptsExactlyTheLegalWords :=
  Machine.exists_decode_ok_iff

/-- Settles O1: each sample word is the one the encoder makes for its command. -/
theorem sampleWordsDecodeToTheirCommands : Obligations.SampleWordsDecodeToTheirCommands :=
  have sample := decodeOfEncodeIsTheInstruction
  ⟨sample (.init 0x1000 4) rfl, sample .rdbit rfl, sample (.rdbits 0) rfl, sample (.rdbits 1) rfl,
    sample (.rdbits 16) rfl, sample (.pkbits 16) rfl, sample .rdu16le rfl, sample .rdu32le rfl,
    sample .rdu24be rfl, sample .isempty rfl⟩

end Sys2Proof
end

section
/-! PROOFS. 41_bit_extraction.md, 42_marshaling.md: a reading command that has its bits, whatever the
host did to the bytes it loads (R50, R91). -/

namespace Sys2Proof.Machine

/-- The state after reads of `n` bits in all, before the answer, where the last load left `word` and
`d` draws were taken in all (R91, U6). -/
def State.advancedTo (n : Nat) (word : Word) (d : Nat) (s : State) : State :=
  { s with
    cur   := { s.cur with
      regs  := { s.cur.regs.advance s.addrW s.mem n with word := word }
      reads := s.cur.reads ++ s.cur.regs.loadAddrs s.addrW n }
    draws := d }

/-- Bits that REM holds need no byte. -/
theorem cleanFor_of_le_rem {w : Config.AddrWidth} {e : Instance} {n : Nat}
    (h : n ≤ e.regs.rem.toNat) : e.CleanFor w n := by
  simp [Instance.CleanFor, Regs.loadAddrs, loadsFor_zero h]

section
variable {n k : Nat} {s : State}

/-- R91: a ReadBits step that loads a word does so whatever the port gives. -/
theorem readBits_loading (hrem : s.cur.regs.rem.toNat < n) (hn : n ≤ 16)
    (hlen : 2 ≤ s.cur.regs.len) :
    ∃ word v d, readBits n s = some (v, s.advancedTo n word d) := by
  obtain ⟨d, hd⟩ := loadWord_frame s
  have hl := loadsFor_one hrem (by omega)
  rw [readBits_crossing n s hrem hlen, hd]
  refine ⟨(readWord s.cur.regs.ptr s).1, _, d, congrArg some (congrArg (_, ·) ?_)⟩
  simp only [State.advancedTo, setRem, setRegs, Regs.advance, hl, loadAddrs_one hl]
  rw [show 16 - (n - s.cur.regs.rem.toNat) = s.cur.regs.rem.toNat + 16 * 1 - n by omega]

variable (hr : s.cur.regs.InRange s.addrW)
include hr

/-- R50, R91: a ReadBits step that has its bits completes whatever the host wrote; where the host kept
its duty, WORD is the word of the memory. -/
theorem readBits_of_le_available (hn : n ≤ 16) (ha : n ≤ s.cur.regs.available) :
    ∃ word v d, v < 2 ^ n ∧
      (s.cur.CleanFor s.addrW n → word = (s.cur.regs.advance s.addrW s.mem n).word) ∧
      readBits n s = some (v, s.advancedTo n word d) := by
  by_cases hc : s.cur.CleanFor s.addrW n
  · exact ⟨_, _, _, nextBits_lt _ _ _ _ (by omega), fun _ => rfl, readBits_clean n s hn hr ha hc⟩
  · have hrem : s.cur.regs.rem.toNat < n := by
      by_contra h
      exact hc (cleanFor_of_le_rem (Nat.not_lt.mp h))
    have hlen : 2 ≤ s.cur.regs.len := by rw [Regs.available] at ha; omega
    obtain ⟨word, v, d, hread⟩ := readBits_loading hrem hn hlen
    exact ⟨word, v, d, readBits_lt hread hn, fun hc' => absurd hc' hc, hread⟩

/-- Two reads in a row advance as one read of both widths, whatever words they load. -/
theorem advancedTo_advancedTo (word word' : Word) (d d' : Nat) :
    (s.advancedTo n word d).advancedTo k word' d' = s.advancedTo (n + k) word' d' := by
  simp only [State.advancedTo]
  rw [← advance_advance hr.rem_le, ← loadAddrs_advance (m := s.mem) hr.rem_le, List.append_assoc]
  rfl

theorem readOne_of_le_available {f : Nat → Nat} {b : Nat} (hn : n ≤ 16)
    (ha : n ≤ s.cur.regs.available) (hf : ∀ v, v < 2 ^ n → f v < b) :
    ∃ word v d, v < b ∧ readOne n f s = respond .ok v (s.advancedTo n word d) := by
  obtain ⟨word, v, d, hv, -, hread⟩ := readBits_of_le_available hr hn ha
  exact ⟨word, f v, d, hf v hv, readOne_of_some f hread⟩

theorem readTwo_of_le_available {f : Nat → Nat → Nat} {b : Nat} (hn : n ≤ 16) (hk : k ≤ 16)
    (ha : n + k ≤ s.cur.regs.available) (hf : ∀ u v, u < 2 ^ n → v < 2 ^ k → f u v < b) :
    ∃ word v d, v < b ∧ readTwo n k f s = respond .ok v (s.advancedTo (n + k) word d) := by
  obtain ⟨word, u, d, hu, -, hread⟩ := readBits_of_le_available hr hn (by omega)
  have hr' : (s.advancedTo n word d).cur.regs.InRange s.addrW := by
    obtain ⟨hrem, hptr, hlen⟩ := advance_inRange (m := s.mem) (n := n) hr
    exact ⟨hrem, hptr, hlen⟩
  have ha' : k ≤ (s.advancedTo n word d).cur.regs.available :=
    available_advance (w := s.addrW) (m := s.mem) hr.rem_le ha
  obtain ⟨word', v, d', hv, hsecond⟩ :=
    readOne_of_le_available (s := s.advancedTo n word d) hr' hk ha' fun v => hf u v hu
  refine ⟨word', v, d', hv, ?_⟩
  rw [readTwo_of_some k f hread, hsecond, advancedTo_advancedTo hr]

end

theorem joinU32le_lt (a b : Nat) : joinU32le a b < 2 ^ 32 := by
  have ha := swap16_lt a
  have hb := swap16_lt b
  rw [joinU32le_eq]
  omega

theorem joinU24be_lt {a b : Nat} (ha : a < 2 ^ 16) (hb : b < 2 ^ 8) : joinU24be a b < 2 ^ 24 := by
  rw [joinU24be_eq a b hb]
  omega

/-- Settles O17: each command's ReadBits steps take the next bits, and its arrangement joins them. -/
theorem readCommandsReturnTheNextBits : Obligations.ReadCommandsReturnTheNextBits :=
  fun _ _ _ => exec_reading_clean

/-- Settles O18: a load completes with whatever the port gives, and only WORD and the value see it. -/
theorem readsCompleteWhateverTheHostWrote : Obligations.ReadsCompleteWhateverTheHostWrote := by
  intro i n s hw hi hf hr ha
  have serving {rule : State → State} (h : ∃ word v d, v < 2 ^ n ∧
      rule (beginCommand s) = respond .ok v ((beginCommand s).advancedTo n word d)) :
      ∃ w v d, v < 2 ^ n ∧ serveCommand rule s
        = .next (s.answers { s.cur.regs.advance s.addrW s.mem n with word := w } .ok v
          (s.cur.regs.loadAddrs s.addrW n) d) := by
    obtain ⟨word, v, d, hv, hrule⟩ := h
    refine ⟨word, v, d, hv, ?_⟩
    rw [serveCommand_serving rule s hf, hrule]
    rfl
  cases i with
  | init | pkbits | isempty => cases hi
  | rdbit =>
    cases hi
    exact serving (readOne_of_le_available (s := beginCommand s) (f := id) hr (by decide) ha
      fun _ => id)
  | rdbits c =>
    cases hi
    have hcount := toNat_le_of_rdbits_wellFormed hw
    rw [exec_rdbits_eq s hcount]
    exact serving (readOne_of_le_available (s := beginCommand s) (f := id) hr hcount ha fun _ => id)
  | rdu16le =>
    cases hi
    exact serving (readOne_of_le_available (s := beginCommand s) hr (by decide) ha
      fun v _ => swap16_lt v)
  | rdu32le =>
    cases hi
    exact serving (readTwo_of_le_available (s := beginCommand s) (n := 16) (k := 16) hr (by decide)
      (by decide) ha fun u v _ _ => joinU32le_lt u v)
  | rdu24be =>
    cases hi
    exact serving (readTwo_of_le_available (s := beginCommand s) (n := 16) (k := 8) hr (by decide)
      (by decide) ha fun _ _ => joinU24be_lt)

end Sys2Proof.Machine
end

section
/-! PROOFS. 20_memory.md: READ_BITS of a whole word from a spent lookahead, at the top of the address
space (R52) and on bytes where the host broke its duty (U6). -/

namespace Sys2Proof.Machine

/-- R91: READ_BITS of 16 with nothing in the lookahead answers the word it loads, the two bytes as the
port gives them. -/
theorem exec_rdbits_word {s s0 s1 : State} {b0 b1 : Byte} (hf : s.cur.regs.faulted = false)
    (hrem : s.cur.regs.rem = 0) (hlen : 2 ≤ s.cur.regs.len)
    (h0 : memRead s.cur.regs.ptr (beginCommand s) = (b0, s0))
    (h1 : memRead (s.cur.regs.ptr + 1) s0 = (b1, s1)) :
    exec (.rdbits 16) s = .next (s.answers
      { word    := b1 ++ b0
        rem     := 0
        ptr     := s.addrW.wrap (s.cur.regs.ptr + 2)
        len     := s.cur.regs.len - 2
        faulted := false } .ok (b1 ++ b0).toNat
      [s.addrW.wrap s.cur.regs.ptr, s.addrW.wrap (s.cur.regs.ptr + 1)] s1.draws) := by
  rw [exec_rdbits_serving hf (by decide), show (16 : Count).toNat = 16 from rfl,
    readOne_crossing id (by simp [hrem]) (by decide) hlen h0 h1, hrem, hf]
  simp [Nat.mod_one]

/-- Settles O26: both addresses of a load and PTR after it are reduced, and the highest address is
followed by 0. -/
theorem loadWrapsAtTheTopOfMemory : Obligations.LoadWrapsAtTheTopOfMemory := by
  intro s hf hrem hlen
  have hsize : 4 ≤ 2 ^ s.addrW.bits := s.addrW.four_le_size
  refine ⟨_, exec_rdbits_word hf hrem hlen rfl rfl, Nat.sub_add_cancel hlen, rfl, rfl,
    fun htop => ⟨?_, ?_⟩, fun htop => ?_⟩
  · change [s.cur.regs.ptr % 2 ^ s.addrW.bits, (s.cur.regs.ptr + 1) % 2 ^ s.addrW.bits] = _
    rw [htop, Nat.mod_self, Nat.mod_eq_of_lt (by omega), ← htop, Nat.add_sub_cancel]
  · change (s.cur.regs.ptr + 1 + 1) % 2 ^ s.addrW.bits = 1
    rw [htop, Nat.add_mod_left, Nat.mod_eq_of_lt (by omega)]
  · change (s.cur.regs.ptr + 2) % 2 ^ s.addrW.bits = 0
    rw [htop, Nat.mod_self]

/-- Settles O43: each of the two reads of the load is a draw. -/
theorem disturbedBytesAreDraws : Obligations.DisturbedBytesAreDraws := by
  intro s hf hrem hlen h0 h1
  exact exec_rdbits_word hf hrem hlen (memRead_disturbed _ _ h0) (memRead_disturbed _ _ h1)

end Sys2Proof.Machine
end

section
/-! PROOFS. 10_state.md, 20_memory.md: every command keeps the invariant of the system (R21, R23, R32,
R50). -/

namespace Sys2Proof.Machine

/-! ### The engine in service -/

/-- An engine whose cursor and hold on memory are sound: what the invariant says of each. -/
structure Instance.Sound (w : Config.AddrWidth) (m : Memory) (pending : List (Nat × Byte))
    (e : Instance) : Prop where
  cursor : e.CursorInv w
  memory : e.MemoryInv w m pending

/-- FAULTED and what the ports last carried have no part in the invariant. -/
theorem Instance.Sound.congr {w : Config.AddrWidth} {m : Memory} {pending : List (Nat × Byte)}
    {e e' : Instance} (h : e.Sound w m pending)
    (hregs : e'.regs = { e.regs with faulted := e'.regs.faulted })
    (hsession : e'.session = e.session) : e'.Sound w m pending := by
  obtain ⟨⟨word, rem, ptr, len, faulted⟩, ses, response, reads⟩ := e
  obtain ⟨⟨word', rem', ptr', len', faulted'⟩, ses', response', reads'⟩ := e'
  obtain ⟨⟨⟨hrem, hptr, hlen⟩, hbase, hsize, hparity, hfront, hloaded⟩, hword, hnoted, hcovered⟩ := h
  cases hregs
  cases hsession
  exact ⟨⟨⟨hrem, hptr, hlen⟩, hbase, hsize, hparity, hfront, hloaded⟩, hword, hnoted, hcovered⟩

/-- The engine in service of a sound system. -/
theorem State.Inv.cur_sound {s : State} (h : s.Inv) : s.cur.Sound s.addrW s.mem s.pending :=
  ⟨h.cursor s.cur List.mem_cons_self, h.memory s.cur List.mem_cons_self⟩

/-- Where only the engine in service changes, the count of draws and the host's events to come, the
system is sound if that engine is. -/
theorem State.Inv.withCur {s : State} (h : s.Inv) {e : Instance}
    (he : e.Sound s.addrW s.mem s.pending) {d : Nat} {is : List HostEvent} :
    State.Inv { s with cur := e, draws := d, inputs := is } where
  mem_wf     := h.mem_wf
  pending_lt := h.pending_lt
  cursor     := List.forall_mem_cons.mpr
    ⟨he.cursor, fun e' he' => h.cursor e' (List.mem_cons_of_mem _ he')⟩
  memory     := List.forall_mem_cons.mpr
    ⟨he.memory, fun e' he' => h.memory e' (List.mem_cons_of_mem _ he')⟩

/-- Where moreover that engine keeps its session, and its registers but FAULTED. -/
theorem State.Inv.congr {s t : State} (h : s.Inv)
    (ht : t = { s with cur := t.cur, draws := t.draws, inputs := t.inputs })
    (hregs : t.cur.regs = { s.cur.regs with faulted := t.cur.regs.faulted })
    (hsession : t.cur.session = s.cur.session) : t.Inv := by
  rw [ht]
  exact h.withCur (h.cur_sound.congr hregs hsession)

/-! ### ReadBits -/

/-- R21, R42: the bytes a ReadBits step loads are those of the last word loaded after it, so where
that word's bytes are undisturbed the step is clean. -/
theorem cleanFor_of_last_word {w : Config.AddrWidth} {e : Instance} {n : Nat} (hn : n ≤ 16)
    (hc : e.CursorInv w)
    (h0 : e.session.addr w (2 * (e.loadedWords + e.regs.loadsFor n - 1)) ∉ e.session.disturbed)
    (h1 : e.session.addr w (2 * (e.loadedWords + e.regs.loadsFor n - 1) + 1)
      ∉ e.session.disturbed) : e.CleanFor w n := by
  rcases Nat.lt_or_ge e.regs.rem.toNat n with hrem | hrem
  · have hl := loadsFor_one hrem (by omega)
    rw [hl, Nat.add_sub_cancel] at h0 h1
    rw [Session.addr, ← Nat.add_assoc, ← w.wrap_wrap_add, ← Session.addr, ← hc.ptr_eq] at h1
    rw [← hc.ptr_eq, ← w.wrap_of_lt hc.in_range.ptr_lt] at h0
    simp only [Instance.CleanFor, loadAddrs_one hl, List.forall_mem_cons]
    exact ⟨h0, h1, fun a ha => (List.not_mem_nil ha).elim⟩
  · exact cleanFor_of_le_rem hrem

/-- R21, R32, R50: a ReadBits step moves the cursor over whole words, and leaves in WORD the word of
the memory where the host kept its duty on it. -/
theorem advancedTo_sound {n : Nat} {word : Word} {s : State} (d : Nat) (hn : n ≤ 16)
    (h : s.cur.Sound s.addrW s.mem s.pending) (ha : n ≤ s.cur.regs.available)
    (hword : s.cur.CleanFor s.addrW n → word = (s.cur.regs.advance s.addrW s.mem n).word) :
    (s.advancedTo n word d).cur.Sound s.addrW s.mem s.pending := by
  obtain ⟨hc, hm⟩ := h
  have hloaded := loadedWords_answered_advance (m := s.mem) hc ha .ok 0 []
  obtain ⟨⟨hrem, hptr, hlen⟩, hbase, hsize, hparity, hfront, hcounted⟩ :=
    cursorInv_answered_advance (m := s.mem) hc ha .ok 0 []
  obtain ⟨hlast, hnoted, hcovered⟩ := memoryInv_answered_advance hc hm ha .ok 0 []
  refine ⟨⟨⟨hrem, hptr, hlen⟩, hbase, hsize, hparity, hfront, hcounted⟩,
    ⟨fun hpos h0 h1 => ?_, hnoted, hcovered⟩⟩
  refine (hword ?_).trans (hlast hpos h0 h1)
  rw [show (s.advancedTo n word d).cur.loadedWords = _ from hloaded] at h0 h1
  exact cleanFor_of_last_word hn hc h0 h1

theorem readBits_inv {n v : Nat} {s t : State} (hn : n ≤ 16) (h : s.Inv)
    (hread : readBits n s = some (v, t)) : t.Inv := by
  have hsound := h.cur_sound
  have ha : n ≤ s.cur.regs.available := by
    have := available_readBits hread hn
    omega
  obtain ⟨word, v', d, -, hword, hread'⟩ :=
    readBits_of_le_available hsound.cursor.in_range hn ha
  rw [hread] at hread'
  cases hread'
  exact h.withCur (advancedTo_sound d hn hsound ha hword)

/-! ### The commands' rules -/

theorem respond_inv {s : State} (h : s.Inv) (st : Status) (v : Nat) : (respond st v s).Inv :=
  h.congr rfl rfl rfl

theorem faultEntry_inv {s : State} (h : s.Inv) : (faultEntry s).Inv :=
  h.congr rfl rfl rfl

theorem readOne_inv {n : Nat} (hn : n ≤ 16) (f : Nat → Nat) {s : State} (h : s.Inv) :
    (readOne n f s).Inv := by
  cases hread : readBits n s with
  | none =>
    rw [readOne_of_none f hread]
    exact respond_inv h _ _
  | some p =>
    rw [readOne_of_some f hread]
    exact respond_inv (readBits_inv hn h hread) _ _

theorem readTwo_inv {n k : Nat} (hn : n ≤ 16) (hk : k ≤ 16) (f : Nat → Nat → Nat) {s : State}
    (h : s.Inv) : (readTwo n k f s).Inv := by
  cases hread : readBits n s with
  | none =>
    rw [readTwo_of_none k f hread]
    exact respond_inv h _ _
  | some p =>
    rw [readTwo_of_some k f hread]
    exact readOne_inv hk _ (readBits_inv hn h hread)

theorem peekRule_inv (n : Nat) {s : State} (h : s.Inv) : (peekRule n s).Inv := by
  obtain ⟨rs, d, hframe⟩ := peekBits_frame n s
  have hpeeked : (peekBits n s).2.Inv := by
    rw [hframe]
    exact h.congr rfl rfl rfl
  exact respond_inv hpeeked _ _

/-- R80, R83: INIT stands at the front of its range and notes the writes not yet visible. -/
theorem initRule_inv (base blen : Nat) {s : State} (h : s.Inv) : (initRule base blen s).Inv := by
  have hbase := s.addrW.wrap_lt base
  have hblen := s.addrW.wrap_lt blen
  obtain ⟨d, hd⟩ := exists_sessionStart_eq s.addrW (s.addrW.wrap base) (s.addrW.wrap blen) s.pending
  refine h.withCur ⟨?_, init_memoryInv h.pending_lt _ _ _ _⟩
  rw [hd]
  exact init_cursorInv hbase hblen _ _ _ _ _

theorem isEmptyRule_inv {s : State} (h : s.Inv) : (isEmptyRule s).Inv :=
  respond_inv h _ _

theorem withCount_inv {rule : Nat → State → State} (c : Count) {s : State} (h : s.Inv)
    (hrule : ∀ n, n ≤ 16 → (rule n s).Inv) : (withCount c rule s).Inv := by
  rcases Nat.lt_or_ge 16 c.toNat with hc | hc
  · rw [withCount_illegal c rule s hc]
    exact faultEntry_inv h
  · rw [withCount_legal c rule s hc]
    exact hrule _ hc

theorem serveCommand_inv {rule : State → State} {s t : State} (hs : s.Inv)
    (h : serveCommand rule s = .next t) (hrule : ∀ s : State, s.Inv → (rule s).Inv) : t.Inv := by
  have hbegin : (beginCommand s).Inv := hs.congr rfl rfl rfl
  obtain ⟨-, rfl⟩ | ⟨-, rfl⟩ := serveCommand_cases h
  · exact respond_inv hbegin _ _
  · exact hrule _ hbegin

/-! ### Every command -/

theorem exec_inv {i : Instr} {s t : State} (hs : s.Inv) (h : exec i s = .next t) : t.Inv := by
  cases i with
  | init base blen => exact serveCommand_inv hs h fun _ => initRule_inv base blen
  | rdbit => exact serveCommand_inv hs h fun _ => readOne_inv (by decide) id
  | rdbits c =>
    exact serveCommand_inv hs h fun _ hs' => withCount_inv c hs' fun _ hn => readOne_inv hn id hs'
  | pkbits c =>
    exact serveCommand_inv hs h fun _ hs' => withCount_inv c hs' fun n _ => peekRule_inv n hs'
  | rdu16le => exact serveCommand_inv hs h fun _ => readOne_inv (by decide) swap16
  | rdu32le =>
    exact serveCommand_inv hs h fun _ => readTwo_inv (by decide) (by decide) joinU32le
  | rdu24be =>
    exact serveCommand_inv hs h fun _ => readTwo_inv (by decide) (by decide) joinU24be
  | isempty => exact serveCommand_inv hs h fun _ => isEmptyRule_inv

theorem serve_inv {tr : Transaction} {s t : State} (hs : s.Inv) (h : serve tr s = .next t) :
    t.Inv := by
  cases hd : decode tr with
  | ok i =>
    rw [serve_ok hd] at h
    exact exec_inv hs h
  | error c =>
    rw [serve_error hd] at h
    exact serveCommand_inv hs h fun _ => faultEntry_inv

end Sys2Proof.Machine
end

section
/-! PROOFS. 10_state.md, 20_memory.md: every step keeps the invariant of the system, the host's events
included (R150, R153, R154). -/

namespace Sys2Proof.Machine

/-! ### Bringing an engine into service, and reset -/

theorem mem_instances_of_swap {k : Nat} {s : State} {e : Instance}
    (he : e ∈ (s.swap k).instances) : e ∈ s.instances := by
  unfold State.swap at he
  split at he
  · exact he
  next j =>
    split at he
    · exact he
    next e' hj =>
      obtain rfl | he := List.mem_cons.mp he
      · exact List.mem_cons_of_mem _ (List.mem_of_getElem? hj)
      · obtain he | rfl := List.mem_or_eq_of_mem_set he
        · exact List.mem_cons_of_mem _ he
        · exact List.mem_cons_self

theorem swap_inv (k : Nat) {s : State} (h : s.Inv) : (s.swap k).Inv where
  mem_wf     := by simpa using h.mem_wf
  pending_lt := by simpa using h.pending_lt
  cursor     := fun e he => by simpa using h.cursor e (mem_instances_of_swap he)
  memory     := fun e he => by simpa using h.memory e (mem_instances_of_swap he)

theorem popInput_inv {s : State} (h : s.Inv) : s.popInput.Inv :=
  h.congr rfl rfl rfl

/-- R33, R83: a reset engine loaded no word and covers no byte. -/
theorem reset_sound (w : Config.AddrWidth) (m : Memory) (pending : List (Nat × Byte))
    (reads : List Nat) : { Instance.reset with reads := reads }.Sound w m pending := by
  have hreset : Instance.reset.Sound w m pending :=
    ⟨reset_cursorInv w, fun hloaded => absurd hloaded (Nat.lt_irrefl 0),
      fun _ _ hcov => absurd (of_decide_eq_true hcov) (Nat.not_lt_zero _),
      fun _ ha => (List.not_mem_nil ha).elim⟩
  exact hreset.congr rfl rfl

theorem resetCurrent_inv {s : State} (h : s.Inv) : (resetCurrent s).Inv :=
  h.withCur (reset_sound _ _ _ [])

theorem abandonCommand_inv {s : State} (h : s.Inv) : (abandonCommand s).Inv :=
  h.withCur (reset_sound _ _ _ _)

/-! ### What the host does -/

section
variable {w : Config.AddrWidth} {m : Memory} {pending : List (Nat × Byte)} {e : Instance}

/-- A broken duty noted moves no cursor. -/
theorem disturb_cursorInv (h : e.CursorInv w) (a : Nat) : (e.disturb w a).CursorInv w := by
  have hbase := disturb_base w e.session a
  have hlen := disturb_len w e.session a
  obtain ⟨hrange, hb, hl, hparity, hfront, hloaded⟩ := h
  have hsame : (e.disturb w a).loadedWords = e.loadedWords := by
    rw [Instance.loadedWords, Instance.disturb, hlen, Instance.loadedWords]
  refine ⟨hrange, by rwa [Instance.disturb, hbase], by rwa [Instance.disturb, hlen], ?_, ?_, ?_⟩ <;>
    rw [hsame]
  · rwa [Instance.disturb, hlen]
  · rwa [Instance.disturb, Session.addr, hbase]
  · exact hloaded

/-- R154: the write is noted where the session covers it, and no byte loses its note. -/
theorem disturb_memoryInv (h : e.MemoryInv w m pending) {a : Nat} (ha : a < w.size) (b : Byte) :
    (e.disturb w a).MemoryInv w m (pending ++ [(a, b)]) := by
  have hbase := disturb_base w e.session a
  have hlen := disturb_len w e.session a
  have hnotes := mem_disturb w e.session a
  have hcovers := disturb_covers w e.session a
  obtain ⟨hword, hnoted, hcovered⟩ := h
  refine ⟨fun hpos h0 h1 => ?_, fun p hp hcov => ?_, fun x hx => ?_⟩
  · simp only [Instance.disturb, Instance.loadedWords, Session.addr, hbase, hlen, hnotes, not_or]
      at hpos h0 h1
    simpa only [Instance.disturb, Instance.loadedWords, streamWord, Session.addr, hbase, hlen]
      using hword hpos h0.1 h1.1
  · rw [Instance.disturb, hcovers] at hcov
    rw [Instance.disturb, hnotes]
    obtain hp | hp := List.mem_append.mp hp
    · exact .inl (hnoted p hp hcov)
    · obtain rfl := List.mem_singleton.mp hp
      exact .inr ⟨rfl, hcov⟩
  · rw [Instance.disturb, hcovers]
    obtain hx | ⟨rfl, hcov⟩ := (hnotes x).mp hx
    · exact hcovered x hx
    · exact ⟨ha, hcov⟩

/-- R31: every byte of a loaded word lies in the session's range. -/
theorem covers_loaded_byte (hc : e.CursorInv w) {k : Nat} (hk : k < 2 * e.loadedWords) :
    e.session.covers w (e.session.addr w k) = true := by
  have hlen := hc.len_lt
  have hparity := hc.len_parity
  exact (covers_iff (w.wrap_lt _) hlen.le).mpr ⟨k, by omega, rfl⟩

/-- R50, R153: publishing changes no undisturbed byte of a loaded word. -/
theorem publish_loaded_byte (hc : e.CursorInv w) (h : e.MemoryInv w m pending) {k : Nat}
    (hk : k < 2 * e.loadedWords) (hclean : e.session.addr w k ∉ e.session.disturbed) :
    byteAt (pending.foldl (fun m p => m.place p.1 p.2) m) (e.session.addr w k)
      = byteAt m (e.session.addr w k) := by
  refine publish_other pending m _ fun p hp heq => hclean ?_
  rw [← heq]
  refine h.pending_noted p hp ?_
  rw [heq]
  exact covers_loaded_byte hc hk

theorem publish_memoryInv (hc : e.CursorInv w) (h : e.MemoryInv w m pending) :
    e.MemoryInv w (pending.foldl (fun m p => m.place p.1 p.2) m) [] where
  word_eq           := fun hpos h0 h1 => by
    rw [streamWord, publish_loaded_byte hc h (by omega) h0, publish_loaded_byte hc h (by omega) h1]
    exact h.word_eq hpos h0 h1
  pending_noted     := fun _ hp => (List.not_mem_nil hp).elim
  disturbed_covered := h.disturbed_covered

end

theorem hostWrite_inv (a : Nat) (b : Byte) {s : State} (h : s.Inv) : (hostWrite a b s).Inv := by
  have ha := s.addrW.wrap_lt a
  have hinstances : (hostWrite a b s).instances
      = s.instances.map (Instance.disturb s.addrW (s.addrW.wrap a)) := rfl
  refine ⟨h.mem_wf, ?_, ?_, ?_⟩
  · exact List.forall_mem_append.mpr ⟨h.pending_lt, List.forall_mem_singleton.mpr ha⟩
  · rw [hinstances, List.forall_mem_map]
    exact fun e he => disturb_cursorInv (h.cursor e he) _
  · rw [hinstances, List.forall_mem_map]
    exact fun e he => disturb_memoryInv (h.memory e he) ha b

theorem hostPublish_inv {s : State} (h : s.Inv) : (hostPublish s).Inv where
  mem_wf     := publish_wf s.pending s.mem h.mem_wf h.pending_lt
  pending_lt := fun _ hp => (List.not_mem_nil hp).elim
  cursor     := h.cursor
  memory     := fun e he => publish_memoryInv (h.cursor e he) (h.memory e he)

/-- Settles O48: serving and reset change one engine soundly, the host's write is noted by every
session it falls in, and what is published was noted. -/
theorem everyStepKeepsTheInvariant : Obligations.EveryStepKeepsTheInvariant := by
  intro s t hs h
  have hpop := popInput_inv hs
  obtain ⟨-, rfl⟩ | ⟨k, tr, -, u, -, -, hu, rfl⟩ | ⟨k, -, -, -, rfl⟩ |
    ⟨k, tr, -, u, -, -, hu, rfl⟩ | ⟨a, b, -, -, rfl⟩ | ⟨-, -, rfl⟩ := step_cases h
  · exact hs
  · exact swap_inv k (serve_inv (swap_inv k hpop) hu)
  · exact swap_inv k (resetCurrent_inv (swap_inv k hpop))
  · exact swap_inv k (abandonCommand_inv (serve_inv (swap_inv k hpop) hu))
  · exact hostWrite_inv a b hpop
  · exact hostPublish_inv hpop

/-- Settles O49: a reset engine is sound over any memory. -/
theorem invariantHoldsAfterReset : Obligations.InvariantHoldsAfterReset :=
  ⟨resetSystem_inv, resetSystem_inv _ _⟩

end Sys2Proof.Machine
end

section
/-! PROOFS. 10_state.md, 43_status.md: what a command leaves unchanged in the engine that serves it
(R21, R27, R28, R83). -/

namespace Sys2Proof.Machine

/-- What a command other than INIT keeps of the engine in service, from state `s` to state `t`: the
session (R83) and, where its word is legal, FAULTED (R27). -/
def KeepsSession (s t : State) : Prop :=
  t.cur.session = s.cur.session ∧ t.cur.regs.faulted = s.cur.regs.faulted

theorem readBits_keepsSession {n v : Nat} {s t : State} (h : readBits n s = some (v, t)) :
    KeepsSession s t := by
  obtain ⟨-, hsession, -, -, -, -, -, hfaulted⟩ := readBits_frame h
  exact ⟨hsession, hfaulted⟩

theorem readOne_keepsSession (n : Nat) (f : Nat → Nat) (s : State) :
    KeepsSession s (readOne n f s) := by
  cases h : readBits n s with
  | none =>
    rw [readOne_of_none f h]
    exact ⟨rfl, rfl⟩
  | some p =>
    rw [readOne_of_some f h]
    exact readBits_keepsSession (t := p.2) h

theorem readTwo_keepsSession (n k : Nat) (f : Nat → Nat → Nat) (s : State) :
    KeepsSession s (readTwo n k f s) := by
  cases h : readBits n s with
  | none =>
    rw [readTwo_of_none k f h]
    exact ⟨rfl, rfl⟩
  | some p =>
    rw [readTwo_of_some k f h]
    obtain ⟨hsession, hfaulted⟩ := readBits_keepsSession h
    obtain ⟨hsession', hfaulted'⟩ := readOne_keepsSession k (f p.1) p.2
    exact ⟨hsession'.trans hsession, hfaulted'.trans hfaulted⟩

theorem peekRule_keepsSession (n : Nat) (s : State) : KeepsSession s (peekRule n s) := by
  obtain ⟨rs, d, h⟩ := peekBits_frame n s
  have hsession : (peekBits n s).2.cur.session = s.cur.session := by rw [h]
  exact ⟨hsession, congrArg Regs.faulted (peekRule_regs n s)⟩

theorem serveCommand_keepsSession {rule : State → State} (hrule : ∀ s, KeepsSession s (rule s))
    {s t : State} (h : serveCommand rule s = .next t) : KeepsSession s t := by
  obtain ⟨-, rfl⟩ | ⟨-, rfl⟩ := serveCommand_cases h
  · exact ⟨rfl, rfl⟩
  · exact hrule (beginCommand s)

theorem exec_keepsSession {i : Instr} {s t : State} (hi : ∀ base blen, i ≠ .init base blen)
    (hw : i.wellFormed = true) (h : exec i s = .next t) : KeepsSession s t := by
  cases i with
  | init base blen => exact absurd rfl (hi base blen)
  | rdbit => exact serveCommand_keepsSession (readOne_keepsSession 1 id) h
  | rdbits c =>
    have hcount := toNat_le_of_rdbits_wellFormed hw
    exact serveCommand_keepsSession (readOne_keepsSession c.toNat id)
      ((exec_rdbits_eq s hcount).symm.trans h)
  | pkbits c =>
    have hcount : c.toNat ≤ 16 := of_decide_eq_true hw
    exact serveCommand_keepsSession (peekRule_keepsSession c.toNat)
      ((serveCommand_withCount_legal peekRule s hcount).symm.trans h)
  | rdu16le => exact serveCommand_keepsSession (readOne_keepsSession 16 swap16) h
  | rdu32le => exact serveCommand_keepsSession (readTwo_keepsSession 16 16 joinU32le) h
  | rdu24be => exact serveCommand_keepsSession (readTwo_keepsSession 16 8 joinU24be) h
  | isempty => exact serveCommand_keepsSession (rule := isEmptyRule) (fun _ => ⟨rfl, rfl⟩) h

/-- R67, R136: an ill-formed command is answered FAULT, and keeps all but FAULTED. -/
theorem exec_illFormed_cases {i : Instr} {s t : State} (hw : i.wellFormed = false)
    (h : exec i s = .next t) : ∃ r, t = s.answers r .fault 0 [] s.draws := by
  cases hf : s.cur.regs.faulted with
  | true =>
    rw [exec_faulted hf] at h
    exact ⟨_, (Host.Outcome.next.inj h).symm⟩
  | false =>
    rw [exec_illFormed hw hf] at h
    exact ⟨_, (Host.Outcome.next.inj h).symm⟩

/-- R83: only INIT begins a session. -/
theorem exec_session_eq {i : Instr} {s t : State} (hi : ∀ base blen, i ≠ .init base blen)
    (h : exec i s = .next t) : t.cur.session = s.cur.session := by
  cases hw : i.wellFormed with
  | true => exact (exec_keepsSession hi hw h).1
  | false =>
    obtain ⟨r, rfl⟩ := exec_illFormed_cases hw h
    rfl

/-- R27, R135: FAULTED is set by the fault entry alone, which no well-formed command takes. -/
theorem exec_faulted_eq {i : Instr} {s t : State} (hw : i.wellFormed = true)
    (h : exec i s = .next t) : t.cur.regs.faulted = s.cur.regs.faulted := by
  by_cases hi : ∃ base blen, i = .init base blen
  · obtain ⟨base, blen, rfl⟩ := hi
    obtain ⟨-, rfl⟩ | ⟨-, rfl⟩ := serveCommand_cases (rule := initRule base blen) h <;> rfl
  · exact (exec_keepsSession (fun base blen hb => hi ⟨base, blen, hb⟩) hw h).2

/-- R94: a peek writes no register. -/
theorem exec_pkbits_regs {c : Count} {s t : State} (hw : (Instr.pkbits c).wellFormed = true)
    (h : exec (.pkbits c) s = .next t) : t.cur.regs = s.cur.regs := by
  have hcount : c.toNat ≤ 16 := of_decide_eq_true hw
  obtain ⟨-, rfl⟩ | ⟨-, rfl⟩ :=
    serveCommand_cases ((serveCommand_withCount_legal peekRule s hcount).symm.trans h)
  · rfl
  · exact peekRule_regs c.toNat (beginCommand s)

/-- R120: IS_EMPTY writes no register. -/
theorem exec_isempty_regs {s t : State} (h : exec .isempty s = .next t) :
    t.cur.regs = s.cur.regs := by
  obtain ⟨-, rfl⟩ | ⟨-, rfl⟩ := serveCommand_cases (rule := isEmptyRule) h <;> rfl

/-- Settles O33: a command stays within the engine that serves it, INIT alone begins a session, and
the fault entry alone sets FAULTED. -/
theorem commandFrame : Obligations.CommandFrame := by
  intro i s t h
  obtain ⟨haddrW, hothers, hmem, hpending, hinputs, -⟩ := exec_serviceFrame h
  refine ⟨haddrW, hothers, fun a => by rw [hmem]; rfl, hmem, hpending, hinputs,
    fun hi => exec_session_eq hi h, fun hw => exec_faulted_eq hw h, ?_⟩
  rintro (⟨c, rfl⟩ | rfl) hw
  · exact exec_pkbits_regs hw h
  · exact exec_isempty_regs h

end Sys2Proof.Machine
end

section
/-! PROOFS. 30_encoding.md, 60_exceptions.md: the one response to every command word (R70), and what
sets FAULTED (R27, R29). -/

namespace Sys2Proof.Machine

/-- R70: a command word is answered OK, or with an error and the value 0. -/
theorem exists_serve_response (t : Transaction) (s : State) :
    ∃ u r, serve t s = .next u ∧ u.cur.response = some r ∧ (r.status ≠ .ok → r.value = 0) := by
  cases hf : s.cur.regs.faulted with
  | true => exact ⟨_, _, serve_faulted hf t, rfl, fun _ => rfl⟩
  | false =>
    cases hd : decode t with
    | error c =>
      exact ⟨_, _, (serve_error hd s).trans (serveCommand_serving faultEntry s hf), rfl,
        fun _ => rfl⟩
    | ok i =>
      have hw := wellFormed_of_decode hd
      rw [serve_ok hd]
      cases hi : i.readWidth with
      | none =>
        obtain ⟨u, v, hexec, hr⟩ := exec_nonreading_response hw hi hf
        exact ⟨u, _, hexec, hr, fun hnok => absurd rfl hnok⟩
      | some n =>
        obtain ⟨u, hexec, ⟨-, hr⟩ | ⟨-, v, hr⟩⟩ := exec_reading_response hw hi hf
        · exact ⟨u, _, hexec, hr, fun _ => rfl⟩
        · exact ⟨u, _, hexec, hr, fun hnok => absurd rfl hnok⟩

/-- R80: INIT's value is 0, whatever its status. -/
theorem exec_init_value {base blen : Nat} {s u : State} {r : Response}
    (h : exec (.init base blen) s = .next u) (hr : u.cur.response = some r) : r.value = 0 := by
  obtain ⟨-, rfl⟩ | ⟨-, rfl⟩ := serveCommand_cases (rule := initRule base blen) h <;>
    · cases hr
      rfl

/-- R70: no status has the code 3. -/
theorem code_ne_three (st : Status) : st.code ≠ 3 := by
  cases st <;> decide

/-- Settles O12: every word is answered, an error without a value, and INIT always so. -/
theorem errorsCarryValueZero : Obligations.ErrorsCarryValueZero := by
  intro t s
  obtain ⟨u, r, hserve, hr, herror⟩ := exists_serve_response t s
  refine ⟨u, r, hserve, hr, herror, code_ne_three _, ?_⟩
  rintro ⟨base, blen, hd⟩
  exact exec_init_value ((serve_ok hd s).symm.trans hserve) hr

/-- Settles O11: of the events that reach an engine, a legal command keeps FAULTED, a reset clears it
and a host write writes no register, so the engine served an illegal word. -/
theorem faultedIsSetOnlyByTheFaultEntry : Obligations.FaultedIsSetOnlyByTheFaultEntry := by
  intro s u k e e' h he he' hf hf'
  obtain rfl | ⟨tr, rest, v, hin, hv, rfl⟩ | ⟨-, -, rfl⟩ | ⟨_, _, _, -, -, rfl⟩ |
    ⟨_, _, _, -, rfl⟩ := step_inst_cases h he he'
  · exact absurd (hf.symm.trans hf') Bool.false_ne_true
  · have hcur : (s.popInput.swap k).cur = e := swap_cur ((popInput_inst k s).trans he)
    by_cases hlegal : LegalWord tr.cmd
    · obtain ⟨i, hd⟩ := (exists_decode_ok_iff tr).mpr hlegal
      rw [serve_ok hd] at hv
      have hkept := exec_faulted_eq (wellFormed_of_decode hd) hv
      rw [hcur] at hkept
      exact absurd ((hkept.trans hf).symm.trans hf') Bool.false_ne_true
    · rw [serve_illegalWord hlegal (by rw [hcur, hf])] at hv
      cases hv
      refine ⟨⟨tr, rest, hin, hlegal⟩, ?_⟩
      rw [faultEntry_beginCommand_cur, hcur]
  · exact absurd hf' Bool.false_ne_true
  · exact absurd hf' Bool.false_ne_true
  · exact absurd (hf.symm.trans hf') Bool.false_ne_true

end Sys2Proof.Machine
end

section
/-! PROOFS. 70_reset_and_hazards.md: what the host does (R153, R154), and what INIT notes of it
(U6). -/

namespace Sys2Proof.Machine

/-- R154: a starting session notes the bytes of its range whose write is not visible. -/
theorem mem_sessionStart_disturbed (w : Config.AddrWidth) (base blen : Nat)
    (pending : List (Nat × Byte)) (a : Nat) :
    a ∈ (Session.start w base blen pending).disturbed ↔
      (⟨base, blen, []⟩ : Session).covers w a = true ∧ ∃ b, (a, b) ∈ pending := by
  rw [Session.start, mem_disturb_list]
  simp

/-- Settles O14: the bytes noted are those covered among the writes not yet visible. -/
theorem initNotesTheWritesNotYetVisible : Obligations.InitNotesTheWritesNotYetVisible := by
  intro s t base blen hf hbase hblen h a ha
  rw [exec_init_serving base blen hf, s.addrW.wrap_of_lt hbase, s.addrW.wrap_of_lt hblen] at h
  cases h
  have hlen : blen ≤ s.addrW.size := Nat.le_of_lt hblen
  exact (mem_sessionStart_disturbed s.addrW base blen s.pending a).trans
    (and_congr_left' (covers_iff ha hlen))

/-- R154: what a session notes of a byte the host writes. -/
theorem mem_disturb_iff {w : Config.AddrWidth} {ses : Session} (hlen : ses.len < w.size)
    (a x : Nat) : x ∈ (ses.disturb w (w.wrap a)).disturbed ↔
      x ∈ ses.disturbed ∨ x = w.wrap a ∧ ∃ j, j < ses.len ∧ x = w.wrap (ses.base + j) := by
  rw [mem_disturb, covers_iff (w.wrap_lt a) hlen.le]
  refine or_congr_right (and_congr_right fun hx => ?_)
  rw [hx]

/-- Settles O42: the write joins those not yet visible, and each session notes it if it covers it. -/
theorem hostWriteBreaksTheDutyOfLiveSessions :
    Obligations.HostWriteBreaksTheDutyOfLiveSessions := by
  intro s a b rest hin
  have hrest : s.popInput.inputs = rest := by rw [popInput_inputs, hin, List.tail_cons]
  refine ⟨hostWrite a b s.popInput, step_event hin, rfl, rfl, hrest, fun k e he => ?_⟩
  refine ⟨e.disturb s.addrW (s.addrW.wrap a), ?_, rfl, rfl, disturb_base _ _ _, disturb_len _ _ _,
    fun _ hlen x => mem_disturb_iff hlen a x⟩
  rw [inst_hostWrite, popInput_inst, he]
  rfl

/-- R153: the last write to an address is the one in force. -/
theorem publish_last (m : Memory) (pre post : List (Nat × Byte)) (a : Nat) (b : Byte)
    (hlast : ∀ c, (a, c) ∉ post) :
    byteAt ((pre ++ (a, b) :: post).foldl (fun m p => m.place p.1 p.2) m) a = b := by
  rw [List.foldl_append, List.foldl_cons,
    publish_other post _ a (fun p hp heq => hlast p.2 (heq ▸ hp)), byteAt_place_same]

/-- Settles O44: the writes reach memory in the host's order, and no other part of the system. -/
theorem publishMakesWritesVisible : Obligations.PublishMakesWritesVisible := by
  intro s rest hin
  have hrest : s.popInput.inputs = rest := by rw [popInput_inputs, hin, List.tail_cons]
  refine ⟨hostPublish s.popInput, step_event hin, rfl, rfl, rfl, rfl, hrest, fun a ha => ?_,
    fun pre a b post hpending hlast => ?_⟩
  · exact publish_other s.pending s.mem a fun p hp heq => ha p.2 (heq ▸ hp)
  · change byteAt (s.pending.foldl _ s.mem) a = b
    rw [hpending]
    exact publish_last s.mem pre post a b hlast

end Sys2Proof.Machine
end

section
/-! PROOFS. 00_scope.md, 60_exceptions.md: a step and the instance its event addresses (R34, R144,
R145, R150). -/

namespace Sys2Proof.Machine

/-- R34, R145: the step of an event at an instance of the system, and what it leaves of each. -/
theorem step_addressed {s u : State} {k : Nat} {e : Instance}
    {act : State → Host.Outcome State Fault Refusal} (hstep : step s = onInst k act s.popInput)
    (he : s.inst k = some e) (hu : act (s.popInput.swap k) = .next u)
    (ho : u.others = (s.popInput.swap k).others) : step s = .next (u.swap k) ∧
      ∀ j, (u.swap k).inst j = if j = k then some u.cur else s.inst j := by
  have hk := hasInst_of_inst he
  refine ⟨hstep.trans (onInst_eq_next.mpr ⟨hk, u, hu, rfl⟩), fun j => ?_⟩
  rw [inst_swap_of_others (s := s.popInput) hk ho, popInput_inst]

/-- R60: the step that serves a command. -/
theorem step_served {s u : State} {k : Nat} {t : Transaction} {rest : List HostEvent} {e : Instance}
    (hin : s.inputs = .command k t :: rest) (he : s.inst k = some e)
    (hu : serve t (s.popInput.swap k) = .next u) : step s = .next (u.swap k) ∧
      ∀ j, (u.swap k).inst j = if j = k then some u.cur else s.inst j :=
  step_addressed (step_event hin) he hu (serve_serviceFrame hu).others

theorem popInput_eq {s : State} {ev : HostEvent} {rest : List HostEvent}
    (hin : s.inputs = ev :: rest) : s.popInput = { s with inputs := rest } := by
  rw [State.popInput, hin, List.tail_cons]

/-- Settles O7: what is served is the decoded command. -/
theorem stepServesTheDecodedCommand : Obligations.StepServesTheDecodedCommand := by
  intro s k t rest i hin hk hd
  rw [step_command hin (decide_eq_true hk), serve_ok hd, popInput_eq hin]

/-- Settles O53: the port carries the low bits of an operand, and reducing it first changes
nothing. -/
theorem wideOperandsAreReducedToTheWidth : Obligations.WideOperandsAreReducedToTheWidth := by
  refine ⟨fun s base blen => ?_, fun s a b => ?_, fun s k t rest base blen e hin hd he hf => ?_⟩
  · simp only [← Config.AddrWidth.wrap_eq]
    cases hf : s.cur.regs.faulted with
    | true => rw [exec_faulted hf, exec_faulted hf]
    | false =>
      rw [exec_init_serving base blen hf, exec_init_serving _ _ hf, s.addrW.wrap_wrap,
        s.addrW.wrap_wrap]
  · rw [← Config.AddrWidth.wrap_eq, hostWrite, hostWrite, s.addrW.wrap_wrap]
  · have hcur : (s.popInput.swap k).cur = e := swap_cur ((popInput_inst k s).trans he)
    have hexec := exec_init_serving base blen (s := s.popInput.swap k) (by rw [hcur, hf])
    obtain ⟨hstep, hinst⟩ := step_served hin he ((serve_ok hd _).trans hexec)
    refine ⟨_, _, hstep, (hinst k).trans (if_pos rfl), ?_, ?_⟩ <;>
      simp [Config.AddrWidth.wrap_eq]

/-! ### Events for an absent instance -/

theorem inst_eq_none_of_not_hasInst {k : Nat} {s : State} (h : ¬ s.hasInst k = true) :
    s.inst k = none := by
  cases he : s.inst k with
  | none => rfl
  | some e => exact absurd (hasInst_of_inst he) h

/-- R9, R145: an event at an instance goes on, or the instance is absent. -/
theorem onInst_cases {act : State → Host.Outcome State Fault Refusal}
    (hact : ∀ s, ∃ u, act s = .next u) (k : Nat) (s : State) :
    (∃ u, onInst k act s = .next u) ∨
      onInst k act s = .fault .noSuchInstance ∧ s.inst k = none := by
  by_cases hk : s.hasInst k = true
  · obtain ⟨u, hu⟩ := hact (s.swap k)
    exact .inl ⟨u.swap k, onInst_eq_next.mpr ⟨hk, u, hu, rfl⟩⟩
  · exact .inr ⟨if_neg hk, inst_eq_none_of_not_hasInst hk⟩

theorem exists_serve_eq_next (t : Transaction) (s : State) : ∃ u, serve t s = .next u := by
  obtain ⟨u, -, hu, -⟩ := exists_serve_response t s
  exact ⟨u, hu⟩

/-- Settles O47: every command word is served, so an event stops the machine only where its instance
is absent. -/
theorem machineStopsOnlyForAnAbsentInstance : Obligations.MachineStopsOnlyForAnAbsentInstance := by
  intro s
  cases hin : s.inputs with
  | nil => exact .inl ⟨s, step_idle hin⟩
  | cons ev rest =>
    rw [step_event hin]
    cases ev with
    | command k t =>
      refine (onInst_cases (exists_serve_eq_next t) k s.popInput).imp_right ?_
      exact fun ⟨hstop, hnone⟩ =>
        ⟨hstop, k, (popInput_inst k s).symm.trans hnone, .inl ⟨t, rest, rfl⟩⟩
    | reset k =>
      refine (onInst_cases (fun s => ⟨resetCurrent s, rfl⟩) k s.popInput).imp_right ?_
      exact fun ⟨hstop, hnone⟩ =>
        ⟨hstop, k, (popInput_inst k s).symm.trans hnone, .inr (.inl ⟨rest, rfl⟩)⟩
    | resetDuring k t =>
      have hact (s : State) : ∃ u, mapNext abandonCommand (serve t s) = .next u := by
        obtain ⟨u, hu⟩ := exists_serve_eq_next t s
        exact ⟨_, mapNext_eq_next.mpr ⟨u, hu, rfl⟩⟩
      refine (onInst_cases hact k s.popInput).imp_right ?_
      exact fun ⟨hstop, hnone⟩ =>
        ⟨hstop, k, (popInput_inst k s).symm.trans hnone, .inr (.inr ⟨t, rest, rfl⟩)⟩
    | write a b => exact .inl ⟨_, rfl⟩
    | publish => exact .inl ⟨_, rfl⟩

/-! ### The instance an event addresses -/

theorem step_inputs {s t : State} (h : step s = .next t) : t.inputs = s.inputs.tail := by
  have hserve {k : Nat} {tr : Transaction} {u : State}
      (hu : serve tr (s.popInput.swap k) = .next u) : u.inputs = s.inputs.tail := by
    simpa using (serve_serviceFrame hu).inputs
  obtain ⟨hin, rfl⟩ | ⟨k, tr, -, u, -, -, hu, rfl⟩ | ⟨k, -, -, -, rfl⟩ |
    ⟨k, tr, -, u, -, -, hu, rfl⟩ | ⟨a, b, -, -, rfl⟩ | ⟨-, -, rfl⟩ := step_cases h
  · rw [hin, List.tail_nil]
  · rw [swap_inputs, hserve hu]
  · simp [resetCurrent]
  · rw [swap_inputs, ← hserve hu, abandonCommand]
  · rfl
  · rfl

/-- Settles O45: a step writes an instance's registers and ports by a command to it or its reset
alone. -/
theorem onlyTheAddressedInstanceChanges : Obligations.OnlyTheAddressedInstanceChanges := by
  intro s u h
  refine ⟨step_inputs h, fun hin => ?_, fun k e he => ?_, fun k j t rest hin hj => ?_⟩
  · exact Host.Outcome.next.inj (h.symm.trans (step_idle hin))
  · obtain ⟨e', he'⟩ := exists_inst_of_step h he
    refine ⟨e', he', fun hchanged => ?_⟩
    obtain rfl | ⟨tr, rest, v, hin, -, -⟩ | ⟨rest, hin, -⟩ | ⟨tr, rest, v, hin, -, -⟩ |
      ⟨a, b, rest, -, rfl⟩ := step_inst_cases h he he'
    · simp at hchanged
    · exact .inl ⟨tr, rest, hin⟩
    · exact .inr (.inl ⟨rest, hin⟩)
    · exact .inr (.inr ⟨tr, rest, hin⟩)
    · simp [Instance.disturb] at hchanged
  · rw [step_event hin] at h
    obtain ⟨hk, v, hv, rfl⟩ := onInst_eq_next.mp (show onInst k (serve t) _ = _ from h)
    rw [inst_swap_of_others hk (serve_serviceFrame hv).others, if_neg hj, popInput_inst]

/-- R150: a reset between commands clears the instance it addresses. -/
theorem step_reset {s : State} {k : Nat} {rest : List HostEvent} {e : Instance}
    (hin : s.inputs = .reset k :: rest) (he : s.inst k = some e) :
    step s = .next ((resetCurrent (s.popInput.swap k)).swap k) ∧
      ∀ j, ((resetCurrent (s.popInput.swap k)).swap k).inst j
        = if j = k then some Instance.reset else s.inst j :=
  step_addressed (act := fun s => .next (resetCurrent s)) (step_event hin) he rfl rfl

/-- R150: a reset during a command clears the instance that would have come to `u`. -/
theorem step_resetDuring {s u : State} {k : Nat} {t : Transaction} {rest : List HostEvent}
    {e : Instance} (hin : s.inputs = .resetDuring k t :: rest) (he : s.inst k = some e)
    (hu : serve t (s.popInput.swap k) = .next u) :
    step s = .next ((abandonCommand u).swap k) ∧
      ∀ j, ((abandonCommand u).swap k).inst j
        = if j = k then some (abandonCommand u).cur else s.inst j :=
  step_addressed (act := fun s => mapNext abandonCommand (serve t s)) (step_event hin) he
    (mapNext_eq_next.mpr ⟨u, hu, rfl⟩) (serve_serviceFrame hu).others

/-- Settles O40: the instance is the reset one, but for the reads of a command that was abandoned. -/
theorem resetClearsTheInstance : Obligations.ResetClearsTheInstance := by
  refine ⟨fun s k rest e hin he => ?_, fun s v k t rest e hin hv he => ?_⟩
  · obtain ⟨hstep, hinst⟩ := step_reset hin he
    refine ⟨_, hstep, (hinst k).trans (if_pos rfl), fun j hj => (hinst j).trans (if_neg hj), ?_⟩
    simp [resetCurrent, hin]
  · rw [step_event rfl, popInput_eq rfl] at hv
    obtain ⟨hk, w, hw, rfl⟩ := onInst_eq_next.mp (show onInst k (serve t) _ = _ from hv)
    rw [← popInput_eq hin] at hk hw
    have hframe := serve_serviceFrame hw
    obtain ⟨e₀, he₀⟩ := inst_of_hasInst hk
    obtain ⟨hstep, hinst⟩ := step_resetDuring hin ((popInput_inst k s).symm.trans he₀) hw
    rw [inst_swap_of_others hk hframe.others, if_pos rfl] at he
    cases he
    refine ⟨_, _, hstep, (hinst k).trans (if_pos rfl), fun j hj => (hinst j).trans (if_neg hj), ?_⟩
    simp [abandonCommand, hframe.mem, hframe.pending, hframe.inputs, hin]

end Sys2Proof.Machine
end

section
/-! PROOFS. 10_state.md: the source's rotating register (R16, R25). -/

namespace Sys2Proof.Machine

/-- R16: a rotation by `k` moves the low `16 - k` bits up and the `k` bits above them down. -/
theorem rotl16_eq {v k : Nat} (hv : v < 2 ^ 16) (hk : k ≤ 16) :
    rotl16 v k = v % 2 ^ (16 - k) * 2 ^ k + v / 2 ^ (16 - k) := by
  have hsplit : 2 ^ 16 = 2 ^ (16 - k) * 2 ^ k := by rw [← Nat.pow_add, Nat.sub_add_cancel hk]
  have hhigh : v / 2 ^ (16 - k) < 2 ^ k := by
    apply Nat.div_lt_of_lt_mul
    rwa [← hsplit]
  rw [rotl16, Nat.shiftRight_eq_div_pow, shiftLeft_or _ _ _ hhigh,
    show 0xFFFF = 2 ^ 16 - 1 from rfl, Nat.and_two_pow_sub_one_eq_mod]
  have := concat_mod v _ (16 - k) k hhigh
  rwa [Nat.sub_add_cancel hk] at this

/-- A rotation by 16 is none. -/
theorem rotl16_mod {v n : Nat} (hv : v < 2 ^ 16) (hn : n ≤ 16) :
    rotl16 v (n % 16) = rotl16 v n := by
  rcases Nat.lt_or_eq_of_le hn with hlt | rfl
  · rw [Nat.mod_eq_of_lt hlt]
  · rw [rotl16_eq hv hn, rotl16_eq hv (Nat.zero_le 16)]
    simp [Nat.mod_one]
    omega

/-- R25: the unconsumed bits stand above the consumed ones. -/
theorem rotated_eq (word : Word) {rem : Nat} (hrem : rem ≤ 16) :
    rotated word rem = word.toNat % 2 ^ rem * 2 ^ (16 - rem) + word.toNat / 2 ^ rem := by
  have hw := word.isLt
  rcases Nat.eq_zero_or_pos rem with rfl | hpos
  · rw [rotated, rotl16_eq hw (Nat.mod_lt _ (by decide)).le]
    simp [Nat.mod_one, Nat.mod_eq_of_lt hw, Nat.div_eq_of_lt hw]
  · rw [rotated, Nat.mod_eq_of_lt (by omega), rotl16_eq hw (Nat.sub_le _ _), Nat.sub_sub_self hrem]

/-- The consumed bits fit below the unconsumed ones. -/
theorem word_div_lt (word : Word) {rem : Nat} (hrem : rem ≤ 16) :
    word.toNat / 2 ^ rem < 2 ^ (16 - rem) := by
  apply Nat.div_lt_of_lt_mul
  rw [← Nat.pow_add, Nat.add_sub_cancel' hrem]
  exact word.isLt

theorem rotated_lt (word : Word) {rem : Nat} (hrem : rem ≤ 16) : rotated word rem < 2 ^ 16 := by
  have hlow := word_div_lt word hrem
  have hhigh : word.toNat % 2 ^ rem < 2 ^ rem := Nat.mod_lt _ (Nat.two_pow_pos rem)
  rw [rotated_eq word hrem]
  calc _ < (word.toNat % 2 ^ rem + 1) * 2 ^ (16 - rem) := by rw [Nat.succ_mul]; omega
    _ ≤ 2 ^ rem * 2 ^ (16 - rem) := Nat.mul_le_mul_right _ hhigh
    _ = 2 ^ 16 := by rw [← Nat.pow_add, Nat.add_sub_cancel' hrem]

/-- R25: the top `m` of the unconsumed bits are the top `m` bits of the rotating register. -/
theorem rotated_div (word : Word) {rem m : Nat} (hrem : rem ≤ 16) (hm : m ≤ rem) :
    rotated word rem / 2 ^ (16 - m) = word.toNat % 2 ^ rem / 2 ^ (rem - m) := by
  rw [rotated_eq word hrem, show 16 - m = 16 - rem + (rem - m) by omega, Nat.pow_add,
    ← Nat.div_div_eq_div_mul, Nat.mul_comm, Nat.mul_add_div (Nat.two_pow_pos _),
    Nat.div_eq_of_lt (word_div_lt word hrem), Nat.add_zero]

/-- R25: below the top `m` unconsumed bits stand the other unconsumed ones, and the consumed ones. -/
theorem rotated_mod (word : Word) {rem m : Nat} (hrem : rem ≤ 16) (hm : m ≤ rem) :
    rotated word rem % 2 ^ (16 - m)
      = word.toNat % 2 ^ (rem - m) * 2 ^ (16 - rem) + word.toNat / 2 ^ rem := by
  rw [rotated_eq word hrem, show 16 - m = rem - m + (16 - rem) by omega,
    concat_mod _ _ _ _ (word_div_lt word hrem),
    Nat.mod_mod_of_dvd _ (Nat.pow_dvd_pow 2 (Nat.sub_le _ _))]

/-- R25: consuming `n` bits rotates the register by `n`. -/
theorem rotated_sub (word : Word) {rem n : Nat} (hrem : rem ≤ 16) (hn : n ≤ rem) (hn' : n ≤ 16) :
    rotated word (rem - n) = rotl16 (rotated word rem) n := by
  rw [rotl16_eq (rotated_lt word hrem) hn', rotated_div word hrem hn, rotated_mod word hrem hn,
    rotated_eq word (by omega), div_two_pow_split word.toNat (rem - n) n, Nat.sub_add_cancel hn,
    show 16 - (rem - n) = 16 - rem + n by omega, Nat.pow_add]
  ring

/-- Settles O38: the register is the unconsumed bits and then the consumed ones, and a rotation moves
the bits it consumes from the front to the end. -/
theorem rotatedWordHoldsTheUnconsumedBitsHigh :
    Obligations.RotatedWordHoldsTheUnconsumedBitsHigh := by
  intro word rem hrem
  refine ⟨rotated_lt word hrem, ?_, fun hpos => ?_, fun n hn => ?_⟩
  · rw [rotated_div word hrem (Nat.le_refl rem), Nat.sub_self, Nat.pow_zero, Nat.div_one]
  · rw [show (15 : Nat) = 16 - 1 from rfl, rotated_div word hrem hpos, toNat_getLsbD,
      show 2 ^ rem = 2 ^ (rem - 1) * 2 by rw [← Nat.pow_succ, Nat.succ_eq_add_one,
        Nat.sub_add_cancel hpos], Nat.mod_mul_right_div_self]
  · rw [rotated_sub word hrem hn (hn.trans hrem),
      rotl16_mod (rotated_lt word hrem) (hn.trans hrem)]

end Sys2Proof.Machine
end

section
/-! PROOFS. 20_memory.md: the bytes a command reads stand at the front of the buffer (R48, R49). -/

namespace Sys2Proof.Machine

/-- The `m` bytes at the front of the buffer of `s` (R21, R52). -/
def State.front (m : Nat) (s : State) : List Nat :=
  (List.range m).map fun k => s.addrW.wrap (s.cur.regs.ptr + k)

/-- From `s` to `t` the `m` bytes at the front of the buffer were read, at most `b`, and no byte
beyond LEN. -/
def ReadsFront (b : Nat) (s t : State) : Prop :=
  ∃ m, m ≤ b ∧ m ≤ s.cur.regs.len ∧ t.cur.reads = s.cur.reads ++ s.front m

theorem readsFront_of_same {b : Nat} {s t : State} (h : t.cur.reads = s.cur.reads) :
    ReadsFront b s t :=
  ⟨0, Nat.zero_le b, Nat.zero_le _, by simp [h, State.front]⟩

/-- R91: a ReadBits step reads nothing and keeps the front where it is, or reads two bytes and moves
the front past them. -/
theorem readBits_front {n v : Nat} {s t : State} (h : readBits n s = some (v, t)) :
    (t.cur.reads = s.cur.reads ∧ t.cur.regs.len = s.cur.regs.len ∧ ∀ m, t.front m = s.front m) ∨
    (t.cur.reads = s.cur.reads ++ s.front 2 ∧ t.cur.regs.len + 2 = s.cur.regs.len ∧
      ∀ m, s.front 2 ++ t.front m = s.front (2 + m)) := by
  obtain ⟨-, -, rfl⟩ | ⟨-, hlen, -, rfl⟩ := readBits_cases h
  · exact .inl ⟨rfl, rfl, fun _ => rfl⟩
  · obtain ⟨d, hd⟩ := loadWord_frame s
    rw [hd]
    refine .inr ⟨rfl, Nat.sub_add_cancel hlen, fun m => ?_⟩
    rw [State.front, State.front, State.front, List.range_add, List.map_append, List.map_map]
    simp [setRem, setRegs, Function.comp_def, Nat.add_assoc]

theorem readOne_readsFront (n : Nat) (f : Nat → Nat) (s : State) :
    ReadsFront 2 s (readOne n f s) := by
  cases h : readBits n s with
  | none =>
    rw [readOne_of_none f h]
    exact readsFront_of_same rfl
  | some p =>
    rw [readOne_of_some f h]
    obtain ⟨hreads, -⟩ | ⟨hreads, hlen, -⟩ := readBits_front (t := p.2) h
    · exact readsFront_of_same hreads
    · exact ⟨2, Nat.le_refl 2, by omega, hreads⟩

theorem readTwo_readsFront (n k : Nat) (f : Nat → Nat → Nat) (s : State) :
    ReadsFront 4 s (readTwo n k f s) := by
  cases h : readBits n s with
  | none =>
    rw [readTwo_of_none k f h]
    exact readsFront_of_same rfl
  | some p =>
    rw [readTwo_of_some k f h]
    obtain ⟨m, hm, hle, hreads'⟩ := readOne_readsFront k (f p.1) p.2
    obtain ⟨hreads, hlen, hfront⟩ | ⟨hreads, hlen, hfront⟩ := readBits_front (t := p.2) h
    · exact ⟨m, by omega, by omega, by rw [hreads', hreads, hfront]⟩
    · exact ⟨2 + m, by omega, by omega, by rw [hreads', hreads, List.append_assoc, hfront]⟩

/-- R94, R100: a peek reads what there is of the next word. -/
theorem peekWord_readsFront (s : State) : ReadsFront 2 s (peekWord s).2 := by
  rcases (by omega : s.cur.regs.len = 0 ∨ s.cur.regs.len = 1 ∨ 2 ≤ s.cur.regs.len) with
    hlen | hlen | hlen
  · rw [peekWord_of_len_zero hlen]
    exact readsFront_of_same rfl
  · obtain ⟨d, hd⟩ := memRead_frame s.cur.regs.ptr s
    rw [peekWord_of_len_one hlen, hd]
    exact ⟨1, by decide, hlen.ge, rfl⟩
  · obtain ⟨d, hd⟩ := readWord_frame s.cur.regs.ptr s
    rw [peekWord_of_two_le_len hlen, hd]
    exact ⟨2, by decide, hlen, rfl⟩

theorem peekRule_readsFront (n : Nat) (s : State) : ReadsFront 2 s (peekRule n s) := by
  rcases Nat.lt_or_ge s.cur.regs.rem.toNat n with h | h
  · rw [peekRule, peekBits_beyond h]
    exact peekWord_readsFront s
  · rw [peekRule, peekBits_within h]
    exact readsFront_of_same rfl

theorem withCount_readsFront {rule : Nat → State → State} {b : Nat}
    (hrule : ∀ n s, ReadsFront b s (rule n s)) (c : Count) (s : State) :
    ReadsFront b s (withCount c rule s) := by
  unfold withCount
  split
  · exact hrule _ s
  · exact readsFront_of_same rfl

/-- R49: what a command reads, no byte having been read for it before. -/
theorem serveCommand_readsFront {rule : State → State} {b : Nat}
    (hrule : ∀ s, ReadsFront b s (rule s)) (hb : b ≤ 4) {s t : State}
    (h : serveCommand rule s = .next t) :
    ∃ m, m ≤ 4 ∧ m ≤ s.cur.regs.len ∧ t.cur.reads = s.front m := by
  obtain ⟨-, rfl⟩ | ⟨-, rfl⟩ := serveCommand_cases h
  · exact ⟨0, Nat.zero_le 4, Nat.zero_le _, rfl⟩
  · obtain ⟨m, hm, hlen, hreads⟩ := hrule (beginCommand s)
    exact ⟨m, hm.trans hb, hlen, hreads⟩

theorem exec_readsFront {i : Instr} {s t : State} (h : exec i s = .next t) :
    ∃ m, m ≤ 4 ∧ m ≤ s.cur.regs.len ∧ t.cur.reads = s.front m := by
  cases i with
  | init base blen =>
    exact serveCommand_readsFront (rule := initRule base blen) (b := 0)
      (fun _ => readsFront_of_same rfl) (by decide) h
  | rdbit => exact serveCommand_readsFront (readOne_readsFront 1 id) (by decide) h
  | rdbits c =>
    exact serveCommand_readsFront (withCount_readsFront (readOne_readsFront · id) c) (by decide) h
  | pkbits c =>
    exact serveCommand_readsFront (withCount_readsFront peekRule_readsFront c) (by decide) h
  | rdu16le => exact serveCommand_readsFront (readOne_readsFront 16 swap16) (by decide) h
  | rdu32le => exact serveCommand_readsFront (readTwo_readsFront 16 16 joinU32le) (by decide) h
  | rdu24be => exact serveCommand_readsFront (readTwo_readsFront 16 8 joinU24be) (by decide) h
  | isempty =>
    exact serveCommand_readsFront (rule := isEmptyRule) (b := 0) (fun _ => readsFront_of_same rfl)
      (by decide) h

/-! ### Reads that the lookahead serves -/

/-- R98: a ReadBits step REM serves reads nothing. -/
theorem readOne_reads_within {n : Nat} (f : Nat → Nat) {s : State}
    (h : n ≤ s.cur.regs.rem.toNat) : (readOne n f s).cur.reads = s.cur.reads := by
  rw [readOne_of_some f (readBits_within n s h)]
  rfl

theorem readTwo_reads_within {n k : Nat} (f : Nat → Nat → Nat) {s : State}
    (h : n + k ≤ s.cur.regs.rem.toNat) : (readTwo n k f s).cur.reads = s.cur.reads := by
  have hrem := s.cur.regs.rem.isLt
  rw [readTwo_of_some k f (readBits_within n s (by omega)), readOne_reads_within]
  · rfl
  · rw [setRem_rem, BitVec.toNat_ofNat, Nat.mod_eq_of_lt (by omega)]
    omega

/-- R48: a reading command whose bits REM holds reads nothing. -/
theorem exec_reads_within {i : Instr} {n : Nat} {s t : State} (hi : i.readWidth = some n)
    (hrem : n ≤ s.cur.regs.rem.toNat) (h : exec i s = .next t) : t.cur.reads = [] := by
  have served {rule : State → State} (hserve : serveCommand rule s = .next t)
      (hrule : (rule (beginCommand s)).cur.reads = []) : t.cur.reads = [] := by
    obtain ⟨-, rfl⟩ | ⟨-, rfl⟩ := serveCommand_cases hserve
    · rfl
    · exact hrule
  cases i with
  | init | pkbits | isempty => cases hi
  | rdbit => cases hi; exact served h (readOne_reads_within (s := beginCommand s) id hrem)
  | rdbits c =>
    cases hi
    refine served h ?_
    unfold withCount
    split
    · exact readOne_reads_within (s := beginCommand s) id hrem
    · rfl
  | rdu16le => cases hi; exact served h (readOne_reads_within (s := beginCommand s) swap16 hrem)
  | rdu32le =>
    cases hi
    exact served h (readTwo_reads_within (n := 16) (k := 16) (s := beginCommand s) joinU32le hrem)
  | rdu24be =>
    cases hi
    exact served h (readTwo_reads_within (n := 16) (k := 8) (s := beginCommand s) joinU24be hrem)

/-- Settles O37: each load takes the two bytes at the front, and a read that REM serves makes none. -/
theorem commandsReadOnlyTheFrontOfTheBuffer : Obligations.CommandsReadOnlyTheFrontOfTheBuffer := by
  intro i s t h
  obtain ⟨m, hm, hlen, hreads⟩ := exec_readsFront h
  refine ⟨⟨m, hlen, ?_⟩, fun n hi hrem => exec_reads_within hi hrem h⟩
  rw [hreads, show [0, 1, 2, 3] = List.range 4 from rfl, ← List.map_take, List.take_range,
    Nat.min_eq_left hm]
  rfl

end Sys2Proof.Machine
end

section
/-! PROOFS. 20_memory.md, 60_exceptions.md: what an engine does where the host kept its duty depends on
that engine and the memory alone (R34, R59, R145). -/

namespace Sys2Proof.Machine

/-- The engine in service and the memory of `s`, in the system of `o`: its other engines, its count of
draws and its host's events. -/
def State.inSystem (o s : State) : State :=
  { s with others := o.others, draws := o.draws, inputs := o.inputs }

/-- A rule that, where the host kept its duty, does the same in every system. -/
def IgnoresSystem (rule : State → State) : Prop :=
  ∀ o s : State, s.cur.session.disturbed = [] → rule (o.inSystem s) = o.inSystem (rule s)

section
variable {o s : State}

/-! ### The memory port takes no draw -/

theorem memRead_inSystem (hd : s.cur.session.disturbed = []) (a : Nat) :
    memRead a (o.inSystem s) = ((memRead a s).1, o.inSystem (memRead a s).2) := by
  have hclean (b : Nat) : b ∉ s.cur.session.disturbed := by simp [hd]
  rw [memRead_clean a s (hclean _), memRead_clean a (o.inSystem s) (hclean _)]
  rfl

theorem memRead_session (a : Nat) (s : State) : (memRead a s).2.cur.session = s.cur.session := by
  obtain ⟨d, hd⟩ := memRead_frame a s
  rw [hd]

theorem readWord_inSystem (hd : s.cur.session.disturbed = []) (a : Nat) :
    readWord a (o.inSystem s) = ((readWord a s).1, o.inSystem (readWord a s).2) := by
  have hd' : (memRead a s).2.cur.session.disturbed = [] := by rw [memRead_session, hd]
  simp only [readWord, memRead_inSystem hd, memRead_inSystem hd']

theorem loadWord_inSystem (hd : s.cur.session.disturbed = []) :
    loadWord (o.inSystem s) = o.inSystem (loadWord s) := by
  have hword := readWord_inSystem (o := o) hd s.cur.regs.ptr
  rw [loadWord, show (o.inSystem s).cur.regs = s.cur.regs from rfl, hword]
  rfl

theorem readBits_inSystem_of_none {n : Nat} (h : readBits n s = none) :
    readBits n (o.inSystem s) = none := by
  obtain ⟨hrem, hlen⟩ := (readBits_eq_none_iff n s).mp h
  exact readBits_underflow n (o.inSystem s) hrem hlen

theorem readBits_inSystem_of_some {n v : Nat} {t : State} (hd : s.cur.session.disturbed = [])
    (h : readBits n s = some (v, t)) : readBits n (o.inSystem s) = some (v, o.inSystem t) := by
  obtain ⟨hrem, rfl, rfl⟩ | ⟨hrem, hlen, rfl, rfl⟩ := readBits_cases h
  · exact readBits_within n (o.inSystem s) hrem
  · rw [readBits_crossing n (o.inSystem s) hrem hlen, loadWord_inSystem hd]
    rfl

theorem peekWord_inSystem (hd : s.cur.session.disturbed = []) :
    peekWord (o.inSystem s) = ((peekWord s).1, o.inSystem (peekWord s).2) := by
  unfold peekWord
  rw [show (o.inSystem s).cur.regs = s.cur.regs from rfl]
  simp only [memRead_inSystem hd, readWord_inSystem hd]
  split <;> rfl

end

/-! ### The commands' rules -/

theorem readOne_ignoresSystem (n : Nat) (f : Nat → Nat) : IgnoresSystem (readOne n f) := by
  intro o s hd
  cases h : readBits n s with
  | none =>
    rw [readOne_of_none f h, readOne_of_none f (readBits_inSystem_of_none h)]
    rfl
  | some p =>
    rw [readOne_of_some f h, readOne_of_some f (readBits_inSystem_of_some hd h)]
    rfl

theorem readTwo_ignoresSystem (n k : Nat) (f : Nat → Nat → Nat) :
    IgnoresSystem (readTwo n k f) := by
  intro o s hd
  cases h : readBits n s with
  | none =>
    rw [readTwo_of_none k f h, readTwo_of_none k f (readBits_inSystem_of_none h)]
    rfl
  | some p =>
    have hd' : p.2.cur.session.disturbed = [] := by rw [(readBits_keepsSession h).1, hd]
    rw [readTwo_of_some k f h, readTwo_of_some k f (readBits_inSystem_of_some hd h)]
    exact readOne_ignoresSystem k (f p.1) o p.2 hd'

theorem peekRule_ignoresSystem (n : Nat) : IgnoresSystem (peekRule n) := by
  intro o s hd
  rcases Nat.lt_or_ge s.cur.regs.rem.toNat n with h | h
  · rw [peekRule, peekRule, peekBits_beyond h, peekBits_beyond (s := o.inSystem s) h,
      peekWord_inSystem hd]
    rfl
  · rw [peekRule, peekRule, peekBits_within h, peekBits_within (s := o.inSystem s) h]
    rfl

theorem withCount_ignoresSystem {rule : Nat → State → State} (hrule : ∀ n, IgnoresSystem (rule n))
    (c : Count) : IgnoresSystem (withCount c rule) := by
  intro o s hd
  unfold withCount
  split
  · exact hrule _ o s hd
  · rfl

/-! ### Every command -/

section
variable {o s t : State} (hd : s.cur.session.disturbed = [])
include hd

theorem serveCommand_inSystem {rule : State → State} (hrule : IgnoresSystem rule)
    (h : serveCommand rule s = .next t) :
    serveCommand rule (o.inSystem s) = .next (o.inSystem t) := by
  obtain ⟨hf, rfl⟩ | ⟨hf, rfl⟩ := serveCommand_cases h
  · exact serveCommand_faulted rule (o.inSystem s) hf
  · rw [← hrule o (beginCommand s) hd]
    exact serveCommand_serving rule (o.inSystem s) hf

theorem exec_inSystem {i : Instr} (h : exec i s = .next t) :
    exec i (o.inSystem s) = .next (o.inSystem t) := by
  cases i with
  | init base blen =>
    exact serveCommand_inSystem (rule := initRule base blen) hd (fun _ _ _ => rfl) h
  | rdbit => exact serveCommand_inSystem hd (readOne_ignoresSystem 1 id) h
  | rdbits c =>
    exact serveCommand_inSystem hd (withCount_ignoresSystem (readOne_ignoresSystem · id) c) h
  | pkbits c => exact serveCommand_inSystem hd (withCount_ignoresSystem peekRule_ignoresSystem c) h
  | rdu16le => exact serveCommand_inSystem hd (readOne_ignoresSystem 16 swap16) h
  | rdu32le => exact serveCommand_inSystem hd (readTwo_ignoresSystem 16 16 joinU32le) h
  | rdu24be => exact serveCommand_inSystem hd (readTwo_ignoresSystem 16 8 joinU24be) h
  | isempty => exact serveCommand_inSystem (rule := isEmptyRule) hd (fun _ _ _ => rfl) h

theorem serve_inSystem {tr : Transaction} (h : serve tr s = .next t) :
    serve tr (o.inSystem s) = .next (o.inSystem t) := by
  cases hdec : decode tr with
  | ok i =>
    rw [serve_ok hdec] at h ⊢
    exact exec_inSystem hd h
  | error c =>
    rw [serve_error hdec] at h ⊢
    exact serveCommand_inSystem (rule := faultEntry) hd (fun _ _ _ => rfl) h

end

/-- R34, R59: what becomes of an engine whose session has no broken duty, by the command it serves,
whatever the rest of the system. -/
theorem exists_served {e : Instance} (hd : e.session.disturbed = []) (tr : Transaction)
    (w : Config.AddrWidth) (m : Memory) (pending : List (Nat × Byte)) :
    ∃ c, ∀ s : State, s.addrW = w → s.mem = m → s.pending = pending → s.cur = e →
      serve tr s = .next { s with cur := c } := by
  obtain ⟨u, hu⟩ := exists_serve_eq_next tr ⟨w, e, [], m, pending, 0, []⟩
  have hframe := serve_serviceFrame hu
  refine ⟨u.cur, ?_⟩
  rintro s rfl rfl rfl rfl
  have hserve := serve_inSystem (o := s) (s := ⟨s.addrW, s.cur, [], s.mem, s.pending, 0, []⟩) hd hu
  refine hserve.trans (congrArg _ ?_)
  rw [State.inSystem, hframe.addrW, hframe.mem, hframe.pending]
  rfl

end Sys2Proof.Machine
end

section
/-! PROOFS. 20_memory.md, 60_exceptions.md: commands to two instances (R34, R59, R145). -/

namespace Sys2Proof.Machine

/-! ### Putting an instance in its place -/

/-- `s` with `e` in the place of instance `k`. -/
def State.setInst (k : Nat) (e : Instance) (s : State) : State :=
  match k with
  | 0     => { s with cur := e }
  | j + 1 => { s with others := s.others.set j e }

theorem setInst_comm {k j : Nat} (h : k ≠ j) (e e' : Instance) (s : State) :
    (s.setInst k e).setInst j e' = (s.setInst j e').setInst k e := by
  cases k with
  | zero =>
    cases j with
    | zero => exact absurd rfl h
    | succ j => rfl
  | succ k =>
    cases j with
    | zero => rfl
    | succ j =>
      have hkj : k ≠ j := fun hkj => h (congrArg _ hkj)
      simp only [State.setInst, List.set_comm _ _ hkj]

theorem setInst_popInput (k : Nat) (e : Instance) (s : State) :
    (s.setInst k e).popInput = s.popInput.setInst k e := by
  cases k <;> rfl

theorem inst_setInst_of_ne {k j : Nat} (h : j ≠ k) (e : Instance) (s : State) :
    (s.setInst k e).inst j = s.inst j := by
  cases k with
  | zero =>
    cases j with
    | zero => exact absurd rfl h
    | succ j => rfl
  | succ k =>
    cases j with
    | zero => rfl
    | succ j =>
      have hkj : k ≠ j := fun hkj => h (congrArg _ hkj.symm)
      simp only [State.inst, State.setInst, List.getElem?_set_ne hkj]

theorem inst_withInputs (k : Nat) (s : State) (is : List HostEvent) :
    State.inst k { s with inputs := is } = s.inst k := by
  cases k <;> rfl

@[simp] theorem setInst_addrW (k : Nat) (e : Instance) (s : State) :
    (s.setInst k e).addrW = s.addrW := by
  cases k <;> rfl

@[simp] theorem setInst_mem (k : Nat) (e : Instance) (s : State) :
    (s.setInst k e).mem = s.mem := by
  cases k <;> rfl

@[simp] theorem setInst_pending (k : Nat) (e : Instance) (s : State) :
    (s.setInst k e).pending = s.pending := by
  cases k <;> rfl

@[simp] theorem setInst_inputs (k : Nat) (e : Instance) (s : State) :
    (s.setInst k e).inputs = s.inputs := by
  cases k <;> rfl

/-- An instance brought into service, changed and put back. -/
theorem swap_setCur_swap {k : Nat} {s : State} (h : s.hasInst k = true) (e : Instance) :
    State.swap k { s.swap k with cur := e } = s.setInst k e := by
  cases k with
  | zero => rfl
  | succ j =>
    have hj : j < s.others.length := of_decide_eq_true h
    simp [State.swap, State.setInst, hj]

theorem mem_instances_of_inst {k : Nat} {s : State} {e : Instance} (h : s.inst k = some e) :
    e ∈ s.instances := by
  cases k with
  | zero => cases h; exact List.mem_cons_self
  | succ j => exact List.mem_cons_of_mem _ (List.mem_of_getElem? h)

/-! ### Two commands -/

/-- R34, R59: a command to an instance whose session has no broken duty changes that instance alone,
and how depends on that instance and the memory alone. -/
theorem exists_step_served {e : Instance} (hd : e.session.disturbed = []) (tr : Transaction)
    (w : Config.AddrWidth) (m : Memory) (pending : List (Nat × Byte)) :
    ∃ c, ∀ (s : State) (k : Nat) (rest : List HostEvent), s.inputs = .command k tr :: rest →
      s.inst k = some e → s.addrW = w → s.mem = m → s.pending = pending →
      step s = .next (s.popInput.setInst k c) := by
  obtain ⟨c, hc⟩ := exists_served hd tr w m pending
  refine ⟨c, ?_⟩
  rintro s k rest hin he rfl rfl rfl
  have hcur : (s.popInput.swap k).cur = e := swap_cur ((popInput_inst k s).trans he)
  have hserve := hc (s.popInput.swap k) (by simp) (by simp) (by simp) hcur
  rw [step_command hin (hasInst_of_inst he), hserve, mapNext,
    swap_setCur_swap (s := s.popInput) (hasInst_of_inst he)]

/-- Two steps, one after the other. -/
theorem run_two_eq_next {s u : State} :
    Sys2Proof.core.run 2 s = .next u ↔ ∃ v, step s = .next v ∧ step v = .next u := by
  have hstep (s : State) : Sys2Proof.core.step s = step s := rfl
  cases h : step s with
  | next v =>
    cases h' : step v with
    | next w =>
      simp only [Host.Core.run, hstep, h, h', Host.Outcome.next.injEq, exists_eq_left']
      exact ⟨Host.Outcome.next.inj, congrArg _⟩
    | fault r => simp [Host.Core.run, hstep, h, h']
    | refused r => simp [Host.Core.run, hstep, h, h']
  | fault r => simp [Host.Core.run, hstep, h]
  | refused r => simp [Host.Core.run, hstep, h]

/-- A step that serves a command to an instance has the instance. -/
theorem exists_inst_of_step_command {s u : State} {k : Nat} {t : Transaction}
    {rest : List HostEvent} (hin : s.inputs = .command k t :: rest) (h : step s = .next u) :
    ∃ e, s.inst k = some e := by
  rw [step_event hin] at h
  obtain ⟨hk, -⟩ := onInst_eq_next.mp (show onInst k (serve t) _ = _ from h)
  exact inst_of_hasInst hk

/-- Settles O46: each command changes its own instance alone, by what that instance and the memory
hold. -/
theorem instancesDoNotInterfere : Obligations.InstancesDoNotInterfere := by
  intro s u k j t t' rest hkj hduty hin hrun
  obtain ⟨v, hv, hu⟩ := run_two_eq_next.mp hrun
  obtain ⟨e, he⟩ := exists_inst_of_step_command hin hv
  obtain ⟨c, hc⟩ :=
    exists_step_served (hduty e (mem_instances_of_inst he)) t s.addrW s.mem s.pending
  obtain rfl := Host.Outcome.next.inj (hv.symm.trans (hc s k _ hin he rfl rfl rfl))
  have hinv : (s.popInput.setInst k c).inputs = .command j t' :: rest := by simp [hin]
  obtain ⟨e', he'⟩ := exists_inst_of_step_command hinv hu
  have hes : s.inst j = some e' := by
    rwa [inst_setInst_of_ne hkj.symm, popInput_inst] at he'
  obtain ⟨c', hc'⟩ :=
    exists_step_served (hduty e' (mem_instances_of_inst hes)) t' s.addrW s.mem s.pending
  obtain rfl := Host.Outcome.next.inj
    (hu.symm.trans (hc' _ j _ hinv he' (by simp) (by simp) (by simp)))
  have hswapped := hc' { s with inputs := .command j t' :: .command k t :: rest } j _ rfl
    ((inst_withInputs j s _).trans hes) rfl rfl rfl
  refine run_two_eq_next.mpr ⟨_, hswapped, ?_⟩
  rw [popInput_eq rfl, hc _ k rest (setInst_inputs _ _ _)
    ((inst_setInst_of_ne hkj c' _).trans ((inst_withInputs k s _).trans he)) (by simp) (by simp)
    (by simp), setInst_popInput, setInst_popInput, popInput_eq hin, popInput_eq rfl,
    popInput_eq rfl, setInst_comm hkj]

end Sys2Proof.Machine
end
